-- ==== Sys2Proof/Word.lean ====
section
/-! DEFINITION. The word types of the JC1 CipherCore block: bytes, the 64-bit operand and result registers,
and the 32-bit command word. Arithmetic on them is `BitVec` arithmetic, so `+` on a byte is the spec's
`+8` (`00_scope.md` rule R8, `10_state.md` rule R21). -/

namespace Sys2Proof

/-- A byte, an unsigned integer 0..255 (`00_scope.md` rule R7): table entries, cursors, bytes of `M`. -/
abbrev Byte := BitVec 8

/-- A value of an operand register or of `R0`, 64 bits (`00_scope.md` rule R6, `XLEN`). -/
abbrev Word64 := BitVec 64

/-- A command word, 32 bits (`30_encoding.md` rule R70). -/
abbrev CmdWord := BitVec 32

end Sys2Proof
end

