-- ==== Sys2Proof/Config.lean ====
section
/-! DEFINITION. The implementation parameters of `00_scope.md` rule R6. All of them are fixed by the spec but
one, `MEM_BYTES`, which is a parameter of the model and is held in `Config`. -/

namespace Sys2Proof

/-- The parameters an implementation fixes. The only one the spec leaves open is `MEM_BYTES`, the size of the
work memory in bytes (`00_scope.md` rule R6, `92_eei_decisions.md` D4, `93_implementation_defined.md` U5).
DESIGN CHOICE (assumption 1): the host's `exec` takes a state and an instruction only, so the machine carries
its `Config` in its state; no step changes it, and a statement about every state is one about every size. -/
structure Config where
  /-- `MEM_BYTES`: the bytes of `M` are `M[0] .. M[memBytes - 1]`. -/
  memBytes : Nat
deriving DecidableEq, Repr

/-- `1 <= MEM_BYTES <= 2^64` (`00_scope.md` rule R6). -/
abbrev Config.Valid (c : Config) : Prop := 1 ≤ c.memBytes ∧ c.memBytes ≤ 2 ^ 64

/-- The size `State.reset` gives the work memory: 4096, the least size the programs of `95_test_vectors.md`
need (`00_scope.md` rule R6). DESIGN CHOICE (assumption 1): the spec leaves the size open. -/
abbrev Config.initial : Config := { memBytes := 4096 }

/-- `PERM_ENTRY_BYTES` (`00_scope.md` rule R6): bytes of one entry `PERM` writes. -/
abbrev permEntryBytes : Nat := 8

/-- `WARMUP_STEPS` (`00_scope.md` rule R6): steps of the warm-up pass of keying. -/
abbrev warmupSteps : Nat := 256

end Sys2Proof
end

