-- ==== Sys2Proof/Syntax.lean ====
section
/-! DEFINITION. The commands of the block (`30_encoding.md` rules R72, R73, R78), one constructor for each of
the twenty-two rows of the opcode table, and the assembler lines of rules R81 and R82 in which
`95_test_vectors.md` writes its programs. -/

namespace Sys2Proof

/-- The two stream-source units, the values of the field `SRC` (`30_encoding.md` rules R70, R73). -/
inductive Src where
  /-- `SRC = 0`: unit `CC`, the single CipherCore. -/
  | cc
  /-- `SRC = 1`: unit `CAS`, the CascadedCipher. -/
  | cas
deriving DecidableEq, Repr

/-- The integer types of `UGEN`, the values of the field `TY` (`30_encoding.md` rule R74). -/
inductive IntType where
  | u8 | u16 | u32 | u64 | i8 | i16 | i32 | i64
deriving DecidableEq, Repr

/-- How a sampler command reads its operand (`42_sampler.md` rule R156). -/
inductive Signedness where
  | signed | unsigned
deriving DecidableEq, Repr

/-- A command: one constructor per row of the opcode table (`30_encoding.md` rule R78). The fields are those
of the command word, each of exactly the width the word gives it, so that every term is a command. -/
inductive Instr where
  /-- `RESET.CC` (`40_ciphercore.md` rule R106). -/
  | resetCc
  /-- `RESET.CAS` (`41_cascaded.md` rule R135). -/
  | resetCas
  /-- `KEY.CC` (`40_ciphercore.md` rule R107). -/
  | keyCc
  /-- `KEY.CAS` (`41_cascaded.md` rule R136). -/
  | keyCas
  /-- `STEP.CC imm8` (`40_ciphercore.md` rule R108). -/
  | stepCc (imm8 : Byte)
  /-- `STEP.CAS imm8` (`41_cascaded.md` rule R137). -/
  | stepCas (imm8 : Byte)
  /-- `XOR.CC` (`40_ciphercore.md` rule R109). -/
  | xorCc
  /-- `XOR.CAS` (`41_cascaded.md` rule R138). -/
  | xorCas
  /-- `READ.CC` (`40_ciphercore.md` rule R110). -/
  | readCc
  /-- `READ.CAS` (`41_cascaded.md` rule R139). -/
  | readCas
  /-- `UBELOW.S unit` (`42_sampler.md` rule R157). -/
  | ubelowS (src : Src)
  /-- `UBELOW.U unit` (`42_sampler.md` rule R158). -/
  | ubelowU (src : Src)
  /-- `UGEN.U8 unit` (`42_sampler.md` rule R160). -/
  | ugenU8 (src : Src)
  /-- `UGEN.U16 unit` (`42_sampler.md` rule R161). -/
  | ugenU16 (src : Src)
  /-- `UGEN.U32 unit` (`42_sampler.md` rule R162). -/
  | ugenU32 (src : Src)
  /-- `UGEN.U64 unit` (`42_sampler.md` rule R163). -/
  | ugenU64 (src : Src)
  /-- `UGEN.I8 unit` (`42_sampler.md` rule R164). -/
  | ugenI8 (src : Src)
  /-- `UGEN.I16 unit` (`42_sampler.md` rule R165). -/
  | ugenI16 (src : Src)
  /-- `UGEN.I32 unit` (`42_sampler.md` rule R166). -/
  | ugenI32 (src : Src)
  /-- `UGEN.I64 unit` (`42_sampler.md` rule R167). -/
  | ugenI64 (src : Src)
  /-- `PERM unit` (`42_sampler.md` rule R170). -/
  | perm (src : Src)
  /-- `SHUF unit` (`42_sampler.md` rule R172). -/
  | shuf (src : Src)
deriving DecidableEq, Repr

/-- The operand registers `A0 .. A3` (`10_state.md` rule R26). -/
inductive OpReg where
  | a0 | a1 | a2 | a3
deriving DecidableEq, Repr

/-- The register space, numbers 0..7 (`10_state.md` rule R34). -/
inductive Reg where
  /-- Number 0, `CMD`: write-only, reads 0. -/
  | cmd
  /-- Number 1, `STATUS`: read-only. -/
  | status
  /-- Numbers 2 to 5, `A0 .. A3`. -/
  | operand (k : OpReg)
  /-- Number 6, `R0`: read-only. -/
  | r0
  /-- Number 7, reserved: reads 0, writes ignored. -/
  | reserved
deriving DecidableEq, Repr

/-- The register number of `10_state.md` rule R34. -/
def Reg.number : Reg → Nat
  | .cmd => 0
  | .status => 1
  | .operand .a0 => 2
  | .operand .a1 => 3
  | .operand .a2 => 4
  | .operand .a3 => 5
  | .r0 => 6
  | .reserved => 7

/-- The pseudo-instructions of `30_encoding.md` rule R82, each with a form for either unit. -/
inductive Pseudo where
  | encrypt | decrypt | construct | fill
deriving DecidableEq, Repr

/-- One line of a program (`30_encoding.md` rules R81, R82). The unit and `imm8` operands of a command stand in
its constructor; `operands` are the register operands, in the order rule R81 writes them. -/
inductive Line where
  /-- `MNEMONIC operand, operand, ...`. -/
  | command (i : Instr) (operands : List Int)
  /-- A pseudo-instruction on a unit. -/
  | pseudo (p : Pseudo) (u : Src) (operands : List Int)
  /-- `WRM addr, b0 b1 ...`: write bytes of `M`. -/
  | wrm (addr : Nat) (bytes : List Byte)
  /-- `RDM addr, len`: read bytes of `M`. -/
  | rdm (addr len : Nat)
  /-- `RDR reg`: read a register. -/
  | rdr (r : Reg)
deriving DecidableEq, Repr

end Sys2Proof
end

