-- ==== Sys2Proof/WellFormed.lean ====
section
/-! DEFINITION. Well-formedness. Every term of `Instr` is a command: its fields are exactly as wide as the
command word's (`Byte` for `IMM8`, `Src` for `SRC`; the eight values of `TY` are eight constructors), so there is
nothing left to check on it. What can be ill-formed is an assembler line (`30_encoding.md` rule R81): it may list
the wrong number of operands or a number its register cannot hold. -/

namespace Sys2Proof

/-- The operand registers a command's line lists, in the order of `30_encoding.md` rule R81. -/
def Instr.operandRegs : Instr → List OpReg
  | .resetCc | .resetCas | .stepCc _ | .stepCas _ => []
  | .keyCc | .keyCas | .readCc | .readCas => [.a0, .a1]
  | .xorCc | .xorCas => [.a0, .a1, .a2]
  | .ubelowS _ | .ubelowU _ | .ugenU8 _ | .ugenU16 _ | .ugenU32 _ | .ugenU64 _
  | .ugenI8 _ | .ugenI16 _ | .ugenI32 _ | .ugenI64 _ => [.a0]
  | .perm _ => [.a0, .a2]
  | .shuf _ => [.a0, .a1, .a2, .a3]

/-- Whether a line may give the command's `A0` as a negative number (`30_encoding.md` rule R81): the rule says so for the
two `UBELOW`s; DEDUCED (assumption 14): so may a line of any other command that reads `A0` with `sgn64` (rule R76). -/
def Instr.negativeA0 : Instr → Bool
  | .ubelowS _ | .ubelowU _ | .ugenI8 _ | .ugenI16 _ | .ugenI32 _ | .ugenI64 _ | .perm _ => true
  | .resetCc | .resetCas | .keyCc | .keyCas | .stepCc _ | .stepCas _ | .xorCc | .xorCas
  | .readCc | .readCas | .ugenU8 _ | .ugenU16 _ | .ugenU32 _ | .ugenU64 _ | .shuf _ => false

/-- Whether a number may stand for a 64-bit operand: a 64-bit pattern, or, where a negative number is allowed, one with a
64-bit two's complement (`30_encoding.md` rule R81). -/
def operandFits (negativeAllowed : Bool) (v : Int) : Bool :=
  decide (v < 2 ^ 64) && (decide (0 ≤ v) || (negativeAllowed && decide (-(2 ^ 63) ≤ v)))

/-- Whether the operands of a command's line are as many as rule R81 lists and each fits its register. -/
def operandsFit (i : Instr) (operands : List Int) : Bool :=
  decide (operands.length = i.operandRegs.length) &&
    (i.operandRegs.zip operands).all fun o => operandFits (i.negativeA0 && decide (o.1 = .a0)) o.2

/-- The command a pseudo-instruction is another name of (`30_encoding.md` rule R82). -/
def Pseudo.expand : Pseudo → Src → Instr
  | .encrypt, .cc | .decrypt, .cc => .xorCc
  | .encrypt, .cas | .decrypt, .cas => .xorCas
  | .construct, .cc => .keyCc
  | .construct, .cas => .keyCas
  | .fill, .cc => .readCc
  | .fill, .cas => .readCas

/-- A line is well-formed: its operands fit, and the bytes a `WRM` or `RDM` names have 64-bit addresses. -/
def Line.wellFormed : Line → Bool
  | .command i operands => operandsFit i operands
  | .pseudo p u operands => operandsFit (p.expand u) operands
  | .wrm addr bytes => decide (addr + bytes.length ≤ 2 ^ 64)
  | .rdm addr len => decide (addr + len ≤ 2 ^ 64)
  | .rdr _ => true

end Sys2Proof
end

