-- ==== Sys2Proof/Decode.lean ====
section
/-! DEFINITION. The decoder and the encoder of the command word (`30_encoding.md`). `decode` follows the fields
of rules R70 to R77; `opcodeTable` is the table of rule R78, written separately, and the laws compare the two.
There is no instruction fetch: the decoder's input is the 32-bit word a host writes to `CMD` (rule R71). -/

namespace Sys2Proof

/-- Why a word is illegal (`30_encoding.md` rule R77). All four raise the one fault `ILLEGAL_COMMAND`; the names
are the model's (assumption 11). -/
inductive Illegal where
  /-- A reserved bit (31:24, 15, 11:9) is 1. -/
  | reservedBit
  /-- `OP` is not one of the ten values of rule R72. -/
  | unassignedOp
  /-- `TY` is not 0 in a command other than `UGEN`. -/
  | typeField
  /-- `IMM8` is not 0 in a command other than `STEP`. -/
  | immField
deriving DecidableEq, Repr

/-- `OP`, bits 7:0 (`30_encoding.md` rule R70). -/
def opField (w : CmdWord) : BitVec 8 := w.extractLsb' 0 8

/-- `SRC`, bit 8 (rule R70). -/
def srcField (w : CmdWord) : Src := if w.extractLsb' 8 1 = 0#1 then .cc else .cas

/-- `TY`, bits 14:12 (rule R70). -/
def tyField (w : CmdWord) : BitVec 3 := w.extractLsb' 12 3

/-- `IMM8`, bits 23:16 (rule R70). -/
def immField (w : CmdWord) : Byte := w.extractLsb' 16 8

/-- Whether the reserved bits 31:24, 15 and 11:9 are all 0 (rule R70). -/
def reservedClear (w : CmdWord) : Bool :=
  decide (w.extractLsb' 24 8 = 0#8) && decide (w.extractLsb' 15 1 = 0#1) && decide (w.extractLsb' 9 3 = 0#3)

/-- A command in which both `TY` and `IMM8` must be 0 (rule R77). -/
def plainCommand (w : CmdWord) (i : Instr) : Except Illegal Instr :=
  if tyField w ≠ 0#3 then .error .typeField
  else if immField w ≠ 0#8 then .error .immField
  else .ok i

/-- `STEP`: `IMM8` is the input byte (rule R75), `TY` must be 0. -/
def stepCommand (w : CmdWord) : Except Illegal Instr :=
  if tyField w ≠ 0#3 then .error .typeField
  else .ok (match srcField w with
    | .cc => .stepCc (immField w)
    | .cas => .stepCas (immField w))

/-- The instruction of `UGEN` for a type (rules R74, R78). -/
def ugenOf (t : IntType) (u : Src) : Instr :=
  match t with
  | .u8 => .ugenU8 u
  | .u16 => .ugenU16 u
  | .u32 => .ugenU32 u
  | .u64 => .ugenU64 u
  | .i8 => .ugenI8 u
  | .i16 => .ugenI16 u
  | .i32 => .ugenI32 u
  | .i64 => .ugenI64 u

/-- The value of `TY` for a type: bits 1:0 the width code, bit 2 set for a signed type (rule R74). -/
def IntType.code : IntType → BitVec 3
  | .u8 => 0#3
  | .u16 => 1#3
  | .u32 => 2#3
  | .u64 => 3#3
  | .i8 => 4#3
  | .i16 => 5#3
  | .i32 => 6#3
  | .i64 => 7#3

/-- The type a value of `TY` names (rule R74); all eight values are legal. -/
def typeOfCode (ty : BitVec 3) : IntType :=
  if ty = 0#3 then .u8
  else if ty = 1#3 then .u16
  else if ty = 2#3 then .u32
  else if ty = 3#3 then .u64
  else if ty = 4#3 then .i8
  else if ty = 5#3 then .i16
  else if ty = 6#3 then .i32
  else .i64

/-- `UGEN`: the type is in `TY`, `IMM8` must be 0 (rules R74, R77). -/
def ugenCommand (w : CmdWord) : Except Illegal Instr :=
  if immField w ≠ 0#8 then .error .immField
  else .ok (ugenOf (typeOfCode (tyField w)) (srcField w))

/-- Choose between the two instructions of a cipher command by `SRC` (rule R73). -/
def bySrc (w : CmdWord) (cc cas : Instr) : Instr :=
  match srcField w with
  | .cc => cc
  | .cas => cas

/-- Decode a command word (rules R70 to R77). Total: every word is a command or is illegal by name (rule R79). -/
def decode (w : CmdWord) : Except Illegal Instr :=
  if reservedClear w = false then .error .reservedBit
  else if opField w = 0x01#8 then plainCommand w (bySrc w .resetCc .resetCas)
  else if opField w = 0x02#8 then plainCommand w (bySrc w .keyCc .keyCas)
  else if opField w = 0x03#8 then stepCommand w
  else if opField w = 0x04#8 then plainCommand w (bySrc w .xorCc .xorCas)
  else if opField w = 0x05#8 then plainCommand w (bySrc w .readCc .readCas)
  else if opField w = 0x10#8 then plainCommand w (.ubelowS (srcField w))
  else if opField w = 0x11#8 then plainCommand w (.ubelowU (srcField w))
  else if opField w = 0x12#8 then ugenCommand w
  else if opField w = 0x18#8 then plainCommand w (.perm (srcField w))
  else if opField w = 0x19#8 then plainCommand w (.shuf (srcField w))
  else .error .unassignedOp

/-- The bit `SRC` for a unit (rule R70). -/
def Src.bit : Src → BitVec 1
  | .cc => 0#1
  | .cas => 1#1

/-- Lay out the format `CMD32` (rule R70), most significant field first, the reserved fields 0. -/
def cmd32 (op : BitVec 8) (u : Src) (ty : BitVec 3) (imm8 : Byte) : CmdWord :=
  0#8 ++ imm8 ++ 0#1 ++ ty ++ 0#3 ++ u.bit ++ op

/-- The word of a command (rules R70, R72, R73). -/
def encode : Instr → CmdWord
  | .resetCc => cmd32 0x01#8 .cc 0#3 0#8
  | .resetCas => cmd32 0x01#8 .cas 0#3 0#8
  | .keyCc => cmd32 0x02#8 .cc 0#3 0#8
  | .keyCas => cmd32 0x02#8 .cas 0#3 0#8
  | .stepCc imm8 => cmd32 0x03#8 .cc 0#3 imm8
  | .stepCas imm8 => cmd32 0x03#8 .cas 0#3 imm8
  | .xorCc => cmd32 0x04#8 .cc 0#3 0#8
  | .xorCas => cmd32 0x04#8 .cas 0#3 0#8
  | .readCc => cmd32 0x05#8 .cc 0#3 0#8
  | .readCas => cmd32 0x05#8 .cas 0#3 0#8
  | .ubelowS u => cmd32 0x10#8 u 0#3 0#8
  | .ubelowU u => cmd32 0x11#8 u 0#3 0#8
  | .ugenU8 u => cmd32 0x12#8 u (IntType.code .u8) 0#8
  | .ugenU16 u => cmd32 0x12#8 u (IntType.code .u16) 0#8
  | .ugenU32 u => cmd32 0x12#8 u (IntType.code .u32) 0#8
  | .ugenU64 u => cmd32 0x12#8 u (IntType.code .u64) 0#8
  | .ugenI8 u => cmd32 0x12#8 u (IntType.code .i8) 0#8
  | .ugenI16 u => cmd32 0x12#8 u (IntType.code .i16) 0#8
  | .ugenI32 u => cmd32 0x12#8 u (IntType.code .i32) 0#8
  | .ugenI64 u => cmd32 0x12#8 u (IntType.code .i64) 0#8
  | .perm u => cmd32 0x18#8 u 0#3 0#8
  | .shuf u => cmd32 0x19#8 u 0#3 0#8

/-- The instruction the decoder reads from the `nbits`-bit word `w`, every bit above `nbits` being 0. A command is
one 32-bit word (rule R71), so there is no byte layout between the word and the decoder; a number that does not fit
in 32 bits is no command. -/
def decodeTableWord (nbits w : Nat) : Option Instr :=
  if w % 2 ^ nbits < 2 ^ 32 then (decode (BitVec.ofNat 32 (w % 2 ^ nbits))).toOption else none

/-- A row of the opcode table (`30_encoding.md` rule R78): a word selects the row when `(w and mask) = match`. -/
structure OpcodeRow where
  /-- The mnemonic. -/
  mnemonic : String
  /-- The column `match`. -/
  pattern : CmdWord
  /-- The column `mask`. -/
  mask : CmdWord
deriving DecidableEq, Repr

/-- A word selects a row (rule R78). -/
def OpcodeRow.selects (r : OpcodeRow) (w : CmdWord) : Bool := decide (w &&& r.mask = r.pattern)

/-- The opcode table of rule R78. -/
def opcodeTable : List OpcodeRow := [
  ⟨"RESET.CC", 0x00000001#32, 0xFFFFFFFF#32⟩,
  ⟨"RESET.CAS", 0x00000101#32, 0xFFFFFFFF#32⟩,
  ⟨"KEY.CC", 0x00000002#32, 0xFFFFFFFF#32⟩,
  ⟨"KEY.CAS", 0x00000102#32, 0xFFFFFFFF#32⟩,
  ⟨"STEP.CC", 0x00000003#32, 0xFF00FFFF#32⟩,
  ⟨"STEP.CAS", 0x00000103#32, 0xFF00FFFF#32⟩,
  ⟨"XOR.CC", 0x00000004#32, 0xFFFFFFFF#32⟩,
  ⟨"XOR.CAS", 0x00000104#32, 0xFFFFFFFF#32⟩,
  ⟨"READ.CC", 0x00000005#32, 0xFFFFFFFF#32⟩,
  ⟨"READ.CAS", 0x00000105#32, 0xFFFFFFFF#32⟩,
  ⟨"UBELOW.S", 0x00000010#32, 0xFFFFFEFF#32⟩,
  ⟨"UBELOW.U", 0x00000011#32, 0xFFFFFEFF#32⟩,
  ⟨"UGEN.U8", 0x00000012#32, 0xFFFFFEFF#32⟩,
  ⟨"UGEN.U16", 0x00001012#32, 0xFFFFFEFF#32⟩,
  ⟨"UGEN.U32", 0x00002012#32, 0xFFFFFEFF#32⟩,
  ⟨"UGEN.U64", 0x00003012#32, 0xFFFFFEFF#32⟩,
  ⟨"UGEN.I8", 0x00004012#32, 0xFFFFFEFF#32⟩,
  ⟨"UGEN.I16", 0x00005012#32, 0xFFFFFEFF#32⟩,
  ⟨"UGEN.I32", 0x00006012#32, 0xFFFFFEFF#32⟩,
  ⟨"UGEN.I64", 0x00007012#32, 0xFFFFFEFF#32⟩,
  ⟨"PERM", 0x00000018#32, 0xFFFFFEFF#32⟩,
  ⟨"SHUF", 0x00000019#32, 0xFFFFFEFF#32⟩]

/-- The mnemonic of a command (rule R78). -/
def Instr.mnemonic : Instr → String
  | .resetCc => "RESET.CC"
  | .resetCas => "RESET.CAS"
  | .keyCc => "KEY.CC"
  | .keyCas => "KEY.CAS"
  | .stepCc _ => "STEP.CC"
  | .stepCas _ => "STEP.CAS"
  | .xorCc => "XOR.CC"
  | .xorCas => "XOR.CAS"
  | .readCc => "READ.CC"
  | .readCas => "READ.CAS"
  | .ubelowS _ => "UBELOW.S"
  | .ubelowU _ => "UBELOW.U"
  | .ugenU8 _ => "UGEN.U8"
  | .ugenU16 _ => "UGEN.U16"
  | .ugenU32 _ => "UGEN.U32"
  | .ugenU64 _ => "UGEN.U64"
  | .ugenI8 _ => "UGEN.I8"
  | .ugenI16 _ => "UGEN.I16"
  | .ugenI32 _ => "UGEN.I32"
  | .ugenI64 _ => "UGEN.I64"
  | .perm _ => "PERM"
  | .shuf _ => "SHUF"

end Sys2Proof
end

