-- ==== Sys2Proof/Machine/State.lean ====
section
/-! DEFINITION. The state of the block (`10_state.md`), the host accesses it takes (`43_transfer_memory_system.md`
rule R184), the reasons a step can stop, and the state after hard reset (`10_state.md` rule R39). Everything is
plain data. -/

namespace Sys2Proof.Machine

/-- The state of one lane (`10_state.md` rule R20): exactly these three fields. The table is 256 independent bytes,
not a permutation (`90_conflicts.md` C7), and always has 256 entries (rule R22). -/
structure Lane where
  /-- `L.S`, the state table. -/
  S : Vector Byte 256
  /-- `L.p`, the position cursor. -/
  p : Byte
  /-- `L.q`, the accumulator cursor. -/
  q : Byte
deriving DecidableEq, Repr

/-- A lane as it comes into existence: all zero (`10_state.md` rules R23, R39). -/
def Lane.zero : Lane := { S := Vector.replicate 256 0#8, p := 0#8, q := 0#8 }

/-- The four lanes of unit `CAS`, `CAS.L[0] .. CAS.L[3]` in order (`10_state.md` rule R24). -/
structure Cascade where
  l0 : Lane
  l1 : Lane
  l2 : Lane
  l3 : Lane
deriving DecidableEq, Repr

/-- Four all-zero lanes. -/
def Cascade.zero : Cascade := { l0 := .zero, l1 := .zero, l2 := .zero, l3 := .zero }

/-- A stream source: the contents of one of the two units, which the sampler draws from (`42_sampler.md` rules R150,
R151). It is a value the commands compute with; the units themselves stand in `State`. -/
inductive Source where
  | cc (l : Lane)
  | cas (c : Cascade)
deriving DecidableEq, Repr

/-- A lane of the state window (`10_state.md` rule R37): lane 0 of unit `CC`, or lane 0..3 of unit `CAS`. -/
inductive LaneName where
  | cc
  | cas (i : Fin 4)
deriving DecidableEq, Repr

/-- What the host can do to the block (`43_transfer_memory_system.md` rule R184), and the hard reset of
`70_reset_and_hazards.md` rule R220. -/
inductive HostAction where
  /-- Read a register. -/
  | readReg (r : Reg)
  /-- Write a command word to `CMD`. -/
  | writeCmd (w : CmdWord)
  /-- Write an operand register. -/
  | writeOperand (k : OpReg) (v : Word64)
  /-- Write `STATUS`: ignored. -/
  | writeStatus (v : BitVec 32)
  /-- Write `R0`: ignored. -/
  | writeR0 (v : Word64)
  /-- Write register number 7: ignored. -/
  | writeReserved (v : Word64)
  /-- Read a byte of `M`. -/
  | readMem (addr : Nat)
  /-- Write a byte of `M`. -/
  | writeMem (addr : Nat) (b : Byte)
  /-- Read index `x` of a lane through the state window. -/
  | readWindow (l : LaneName) (x : Fin 258)
  /-- The platform resets the block. The spec leaves the contents of `M` afterwards open, so the event brings them:
  a list of bytes at addresses, 0 elsewhere, the later entry winning (assumption 4). -/
  | hardReset (contents : List Host.Cell)
deriving DecidableEq, Repr

/-- The value a host read returned. -/
inductive Reply where
  /-- A register's value, zero-extended to 64 bits. -/
  | reg (r : Reg) (v : Word64)
  /-- A byte of `M`. -/
  | mem (addr : Nat) (b : Byte)
  /-- A byte of the state window. -/
  | window (l : LaneName) (x : Fin 258) (b : Byte)
deriving DecidableEq, Repr

/-- The work memory as the list of its bytes that are not 0, at strictly rising addresses. -/
abbrev Memory := List Host.Cell

/-- What an address that is not listed reads as. DESIGN CHOICE (assumption 3): the spec leaves `M` after hard reset
open (`93_implementation_defined.md` U4); the lists represent every contents, and the choice only shows in
`State.reset`. -/
def Memory.unlisted : Byte := 0#8

/-- The one canonical form: addresses strictly rising, no entry equal to what an unlisted address reads as. -/
abbrev Memory.wf (m : Memory) : Prop :=
  m.Pairwise (fun c d => c.1 < d.1) ∧ ∀ c ∈ m, c.2 ≠ Memory.unlisted

/-- The state of the machine: the block's own state (`10_state.md`), the parameter it was built with, and the two
ends of its interface to the host. -/
structure State where
  /-- Unit `CC` (rule R24). -/
  cc : Lane
  /-- Unit `CAS` (rule R24). -/
  cas : Cascade
  /-- Operand register `A0`, number 2 (rule R26). -/
  a0 : Word64
  /-- Operand register `A1`, number 3 (rule R26). -/
  a1 : Word64
  /-- Operand register `A2`, number 4 (rule R26). -/
  a2 : Word64
  /-- Operand register `A3`, number 5 (rule R26). -/
  a3 : Word64
  /-- Result register `R0`, number 6 (rule R27). -/
  r0 : Word64
  /-- `STATUS.BUSY`, bit 0 (rule R29). Between steps it is set only when a command is running that never
  completes (`70_reset_and_hazards.md` rule R227). -/
  busy : Bool
  /-- `STATUS.ERR`, bit 1 (rule R29): the block is halted. -/
  err : Bool
  /-- `STATUS.ERRCODE`, bits 7:4 (rule R29). -/
  errcode : BitVec 4
  /-- The work memory `M` (`20_memory.md` rule R50). -/
  mem : Memory
  /-- The model's own: the parameter `MEM_BYTES` (`00_scope.md` rule R6), which no step changes (assumption 1). -/
  cfg : Config
  /-- The model's own: the host accesses issued and not yet performed, in the order issued (`20_memory.md` rules R59,
  R63). The host program of `10_state.md` rule R30 is what stands here (assumption 2). -/
  pending : List HostAction
  /-- The model's own: what the host's reads have returned, newest first (assumption 2). No command reads it. -/
  replies : List Reply
deriving DecidableEq, Repr

/-- The faults of the block (`60_exceptions.md` rule R190), which are recorded in `STATUS` and are no stop of the
model: the machine goes on, halted. -/
inductive Trap where
  | invalidArgument
  | illegalCommand
  | bounds
deriving DecidableEq, Repr

/-- Why a step can stop. The block itself never stops the model: its own faults are `Trap`s, which halt it in `STATUS`
and leave a next state. -/
inductive Fault where
  /-- Raised by a host read or write of a byte of `M` at an address that does not exist, `MEM_BYTES` or above
  (`20_memory.md` rule R50; what the platform does there is not specified, rule R56). Safe: nothing is claimed of such
  an access (assumption 9). -/
  | absentByte (addr : Nat)
deriving DecidableEq, Repr

/-- Why the model may refuse an instruction. -/
inductive Refusal where
  /-- Raised by `exec` for an instruction that has no meaning yet. Safe: nothing is claimed of it. No instruction of
  this model is refused. -/
  | notModelled (mnemonic : String)
deriving DecidableEq, Repr

/-- The block just after hard reset, of a given size and with given contents of `M`, no access issued
(`10_state.md` rule R39, `70_reset_and_hazards.md` rule R220). -/
def State.afterReset (cfg : Config) (mem : Memory) : State :=
  { cc := .zero, cas := .zero, a0 := 0#64, a1 := 0#64, a2 := 0#64, a3 := 0#64, r0 := 0#64,
    busy := false, err := false, errcode := 0#4, mem := mem, cfg := cfg, pending := [], replies := [] }

/-- The machine right after hard reset (`10_state.md` rule R39). DESIGN CHOICE: the size of `M` (assumption 1) and its
contents, all 0 (assumption 3). -/
def State.reset : State := State.afterReset Config.initial []

end Sys2Proof.Machine
end

