-- ==== Sys2Proof/Machine/Flags.lean ====
section
/-! DEFINITION. The block has no condition codes (`10_state.md` rule R31): no arithmetic records anything beyond its
result. Its only status bits are those of `STATUS` (rule R29); this file computes the word a host reads there. -/

namespace Sys2Proof.Machine

/-- The code a fault leaves in `STATUS.ERRCODE` (`60_exceptions.md` rule R190). -/
def Trap.code : Trap → BitVec 4
  | .invalidArgument => 1#4
  | .illegalCommand => 2#4
  | .bounds => 3#4

/-- The 32-bit word `STATUS` reads as (`10_state.md` rule R29): `ERRCODE` in bits 7:4, `ERR` bit 1, `BUSY` bit 0, the
reserved bits 0. -/
def statusWord (s : State) : BitVec 32 :=
  0#24 ++ s.errcode ++ 0#2 ++ BitVec.ofBool s.err ++ BitVec.ofBool s.busy

end Sys2Proof.Machine
end

