-- ==== Sys2Proof/Machine/Ops.lean ====
section
/-! DEFINITION. The named operations every command is made of: the work memory (`20_memory.md` rule R51), one lane
(`40_ciphercore.md` section 1), the cascade (`41_cascaded.md` section 1), the stream source (`42_sampler.md` section 1),
and the ends of a command: completing, raising a fault (`60_exceptions.md` rule R196), never completing. -/

namespace Sys2Proof.Machine

/-- What a step answers. -/
abbrev Result := Host.Outcome State Fault Refusal

/-! ### The work memory -/

/-- `M[a]`. -/
def Memory.read : Memory → Nat → Byte
  | [], _ => Memory.unlisted
  | c :: m, a => if c.1 = a then c.2 else Memory.read m a

/-- `M[a] <- b`, keeping the canonical form. -/
def Memory.write : Memory → Nat → Byte → Memory
  | [], a, b => if b = Memory.unlisted then [] else [(a, b)]
  | c :: m, a, b =>
    if a < c.1 then (if b = Memory.unlisted then c :: m else (a, b) :: c :: m)
    else if a = c.1 then (if b = Memory.unlisted then m else (a, b) :: m)
    else c :: Memory.write m a b

/-- `MemRead(addr, n)`: the bytes `M[addr] .. M[addr+n-1]`, lowest address first (rule R51). -/
def Memory.readList (m : Memory) : Nat → Nat → List Byte
  | _, 0 => []
  | a, n + 1 => m.read a :: Memory.readList m (a + 1) n

/-- `MemWrite(addr, len(v), v)`, in ascending order (rule R51). -/
def Memory.writeList (m : Memory) : Nat → List Byte → Memory
  | _, [] => m
  | a, b :: bs => Memory.writeList (m.write a b) (a + 1) bs

/-- The integer of a list of bytes, the first the most significant: the sum over `i` of `b[i] * 256^(n-1-i)`
(`20_memory.md` rule R51, `42_sampler.md` rule R152). -/
def beNat (bs : List Byte) : Nat := bs.foldl (fun v b => v * 256 + b.toNat) 0

/-- The `n` bytes of an integer, the most significant first: byte `i` is `(v div 256^(n-1-i)) mod 256` (rule R51). -/
def beBytes : Nat → Nat → List Byte
  | 0, _ => []
  | n + 1, v => BitVec.ofNat 8 (v / 256 ^ n) :: beBytes n v

/-- `MemReadBE(addr, n)` (rule R51). -/
def Memory.readBE (m : Memory) (a n : Nat) : Nat := beNat (m.readList a n)

/-- `MemWriteBE(addr, n, v)` (rule R51). -/
def Memory.writeBE (m : Memory) (a n v : Nat) : Memory := m.writeList a (beBytes n v)

/-- The memory of a given size whose bytes are those listed, 0 elsewhere, the later entry winning; entries at
addresses that do not exist are dropped. What the event of hard reset leaves in `M` (assumption 4). -/
def Memory.ofCells (size : Nat) (cells : List Host.Cell) : Memory :=
  cells.foldl (fun m c => if c.1 < size then m.write c.1 c.2 else m) []

/-! ### One lane -/

/-- `L.S[i]` (`00_scope.md` rule R9). Every index is a byte, so none is out of range (`10_state.md` rule R22). -/
def Lane.entry (L : Lane) (i : Byte) : Byte := L.S[i.toNat]

/-- `L.S[i] <- v` (`00_scope.md` rule R9). -/
def Lane.setEntry (L : Lane) (i v : Byte) : Lane := { L with S := L.S.set i.toNat v }

/-- `ResetLane(L)` (`40_ciphercore.md` rule R101): zero the table and both cursors. -/
def Lane.clear (_ : Lane) : Lane := { S := Vector.replicate 256 0#8, p := 0#8, q := 0#8 }

/-- `CoreStep(L, x)` (`40_ciphercore.md` rule R100), one line for each line of the rule; each sees the writes of those
before it. Answers the byte returned and the lane after. -/
def Lane.coreStep (L : Lane) (x : Byte) : Byte × Lane :=
  let L1 := { L with p := L.p + 1#8 }
  let L2 := L1.setEntry L1.p (L1.entry L1.p + x)
  let L3 := { L2 with q := L2.q + L2.entry L2.p }
  let L4 := L3.setEntry L3.p (L3.entry L3.p + (L3.entry L3.q + L3.p))
  (L4.entry L4.p, L4)

/-- Feed a list of bytes through `CoreStep` in order, discarding the outputs (`40_ciphercore.md` rule R103). -/
def Lane.absorb : Lane → List Byte → Lane
  | L, [] => L
  | L, x :: xs => Lane.absorb (L.coreStep x).2 xs

/-- The inputs of the warm-up pass: 0, 1, ..., 255 (rule R103). -/
def warmupInputs : List Byte := (List.range warmupSteps).map (BitVec.ofNat 8)

/-- `Construct(L, key)` (`40_ciphercore.md` rule R103): reset the lane, absorb the key, make the warm-up pass. -/
def Lane.construct (L : Lane) (key : List Byte) : Lane := (L.clear.absorb key).absorb warmupInputs

/-- `KeystreamXor(L, buf)` (`40_ciphercore.md` rule R104): XOR each byte with `CoreStep(L, 0)`. Answers the list and
the lane after. -/
def Lane.keystreamXor : Lane → List Byte → List Byte × Lane
  | L, [] => ([], L)
  | L, b :: bs =>
    let d := L.coreStep 0#8
    let r := Lane.keystreamXor d.2 bs
    ((b ^^^ d.1) :: r.1, r.2)

/-! ### The cascade -/

/-- `CasReset()` (`41_cascaded.md` rule R130). -/
def Cascade.clear (c : Cascade) : Cascade :=
  { l0 := c.l0.clear, l1 := c.l1.clear, l2 := c.l2.clear, l3 := c.l3.clear }

/-- `CasStep(x)` (`41_cascaded.md` rule R131): lane 0 sees `x`, each further lane the output of the one before. -/
def Cascade.step (c : Cascade) (x : Byte) : Byte × Cascade :=
  let y0 := c.l0.coreStep x
  let y1 := c.l1.coreStep y0.1
  let y2 := c.l2.coreStep y1.1
  let y3 := c.l3.coreStep y2.1
  (y3.1, { l0 := y0.2, l1 := y1.2, l2 := y2.2, l3 := y3.2 })

/-- `CasConstruct(key)` (`41_cascaded.md` rule R132): lane `i`'s key is the original key encrypted under lane `i-1`
alone, and the steps that takes stay in lane `i-1`. -/
def Cascade.construct (c : Cascade) (key : List Byte) : Cascade :=
  let k1 := (c.l0.construct key).keystreamXor key
  let k2 := (c.l1.construct k1.1).keystreamXor key
  let k3 := (c.l2.construct k2.1).keystreamXor key
  { l0 := k1.2, l1 := k2.2, l2 := k3.2, l3 := c.l3.construct k3.1 }

/-- `CasKeystreamXor(buf)` (`41_cascaded.md` rule R133). -/
def Cascade.keystreamXor : Cascade → List Byte → List Byte × Cascade
  | c, [] => ([], c)
  | c, b :: bs =>
    let d := c.step 0#8
    let r := Cascade.keystreamXor d.2 bs
    ((b ^^^ d.1) :: r.1, r.2)

/-! ### The stream source -/

/-- `SrcStep(u, x)` (`42_sampler.md` rule R150). -/
def Source.step : Source → Byte → Byte × Source
  | .cc l, x => ((l.coreStep x).1, .cc (l.coreStep x).2)
  | .cas c, x => ((c.step x).1, .cas (c.step x).2)

/-- `SrcFill(u, buf)` (`42_sampler.md` rule R151): the buffer's contents are XORed, not replaced. -/
def Source.fill : Source → List Byte → List Byte × Source
  | src, [] => ([], src)
  | src, b :: bs =>
    let d := src.step 0#8
    let r := Source.fill d.2 bs
    ((b ^^^ d.1) :: r.1, r.2)

/-- The contents of the unit `SRC` names (`30_encoding.md` rule R73). -/
def State.source (s : State) : Src → Source
  | .cc => .cc s.cc
  | .cas => .cas s.cas

/-- Put a unit's contents back into the unit they came from; the other unit is not touched (`10_state.md` rule R24). -/
def State.putSource (s : State) : Source → State
  | .cc l => { s with cc := l }
  | .cas c => { s with cas := c }

/-! ### Registers and memory of the state -/

/-- Read an operand register (`10_state.md` rule R26). -/
def State.operand (s : State) : OpReg → Word64
  | .a0 => s.a0
  | .a1 => s.a1
  | .a2 => s.a2
  | .a3 => s.a3

/-- The host writes an operand register (`10_state.md` rule R26); the block never does. -/
def State.setOperand (s : State) : OpReg → Word64 → State
  | .a0, v => { s with a0 := v }
  | .a1, v => { s with a1 := v }
  | .a2, v => { s with a2 := v }
  | .a3, v => { s with a3 := v }

/-- `R0 <- v` (`10_state.md` rule R27). -/
def State.setR0 (s : State) (v : Word64) : State := { s with r0 := v }

/-- Replace the work memory. -/
def State.setMem (s : State) (m : Memory) : State := { s with mem := m }

/-! ### How a command ends -/

/-- The command completes: `BUSY` becomes 0 (`30_encoding.md` rule R80). -/
def State.complete (s : State) : State := { s with busy := false }

/-- `raise F` (`60_exceptions.md` rule R196): `ERRCODE` the fault's code, `ERR` 1, `BUSY` 0, and nothing else; nothing
is saved and there is no handler. There is no return from it (rule R198). -/
def State.raise (s : State) (t : Trap) : State := { s with errcode := t.code, err := true, busy := false }

/-- The command never completes: `BUSY` stays 1 (`70_reset_and_hazards.md` rule R227). DESIGN CHOICE (assumption 5): a
hang is no final state and no host access can see the lanes, `R0` or `M` until hard reset replaces them, so the model
leaves them as they were. -/
def State.hang (s : State) : State := { s with busy := true }

end Sys2Proof.Machine
end

