-- ==== Sys2Proof/Machine/Operands.lean ====
section
/-! DEFINITION. How commands read their operands (`30_encoding.md` rule R76): signed and unsigned registers, the bounds
check (`20_memory.md` rule R55), the sampler's types (`30_encoding.md` rule R74) and its argument check
(`42_sampler.md` rule R156). -/

namespace Sys2Proof.Machine

/-- `sgn64(v)`: the 64-bit pattern read as a signed integer (`00_scope.md` rule R7). -/
def sgn64 (v : Word64) : Int := if v.toNat < 2 ^ 63 then (v.toNat : Int) else (v.toNat : Int) - 2 ^ 64

/-- `CheckRange(addr, n)`: `addr + n <= MEM_BYTES` on unbounded integers (`20_memory.md` rule R55). -/
def checkRange (s : State) (addr n : Nat) : Bool := decide (addr + n ≤ s.cfg.memBytes)

/-- `bitlen(v)` (`00_scope.md` rule R8): `bitlen(0) = 0`, else `floor(log2(v)) + 1`. -/
def bitlen (v : Nat) : Nat := if v = 0 then 0 else Nat.log2 v + 1

/-- Whether a type is signed: `TY[2]` (`30_encoding.md` rule R74). -/
def typeSign : IntType → Signedness
  | .u8 | .u16 | .u32 | .u64 => .unsigned
  | .i8 | .i16 | .i32 | .i64 => .signed

/-- The width of a type in bits (`30_encoding.md` rule R74). -/
def typeWidth : IntType → Nat
  | .u8 | .i8 => 8
  | .u16 | .i16 => 16
  | .u32 | .i32 => 32
  | .u64 | .i64 => 64

/-- What the argument check gives (`42_sampler.md` rule R156). -/
inductive ArgResult where
  /-- The command raises `INVALID_ARGUMENT`. -/
  | invalid
  /-- `max = 0` at an unsigned entry point: the result is 0. -/
  | degenerate
  /-- A valid `max`. -/
  | valid (max : Nat)
deriving DecidableEq, Repr

/-- `ArgCheck(sg, W, a)` (`42_sampler.md` rule R156). -/
def argCheck (sg : Signedness) (W : Nat) (a : Word64) : ArgResult :=
  match sg with
  | .signed =>
    if sgn64 a ≤ 0 then .invalid
    else if sgn64 a > 2 ^ (W - 1) - 1 then .invalid
    else .valid (sgn64 a).toNat
  | .unsigned =>
    if a.toNat > 2 ^ W - 1 then .invalid
    else if a.toNat = 0 then .degenerate
    else .valid a.toNat

end Sys2Proof.Machine
end

