-- ==== Sys2Proof/Machine/Cipher.lean ====
section
/-! DEFINITION. The commands of unit `CC` (`40_ciphercore.md` section 2), and the operations over buffers of `M` they
share with unit `CAS`: the loops of `XOR` and `READ`. -/

namespace Sys2Proof.Machine

/-- The loop of `XOR.*` (`40_ciphercore.md` rule R109, `41_cascaded.md` rule R138): for `n` bytes in ascending order,
read a source byte, make one step, write the destination byte. -/
def xorLoop : Nat → Nat → Nat → Source → Memory → Source × Memory
  | 0, _, _, src, m => (src, m)
  | n + 1, a, d, src, m =>
    let r := src.step 0#8
    xorLoop n (a + 1) (d + 1) r.2 (m.write d (m.read a ^^^ r.1))

/-- `XOR` on a unit: source `(A0, A1)`, destination `(A2, A1)`, each range checked before any effect (`60_exceptions.md`
rules R193, R195). -/
def xorOn (u : Src) (s : State) : State :=
  if checkRange s s.a0.toNat s.a1.toNat = false then s.raise .bounds
  else if checkRange s s.a2.toNat s.a1.toNat = false then s.raise .bounds
  else
    let r := xorLoop s.a1.toNat s.a0.toNat s.a2.toNat (s.source u) s.mem
    ((s.putSource r.1).setMem r.2).complete

/-- `READ` on a unit: the buffer `(A0, A1)` in place, not cleared first; `R0` is the count (`40_ciphercore.md` rule
R110, `41_cascaded.md` rule R139). -/
def readOn (u : Src) (s : State) : State :=
  if checkRange s s.a0.toNat s.a1.toNat = false then s.raise .bounds
  else
    let r := xorLoop s.a1.toNat s.a0.toNat s.a0.toNat (s.source u) s.mem
    (((s.putSource r.1).setMem r.2).setR0 s.a1).complete

/-- `RESET.CC` (`40_ciphercore.md` rule R106). -/
def execResetCc (s : State) : Result := .next { s with cc := s.cc.clear }.complete

/-- `KEY.CC addr, len` (`40_ciphercore.md` rule R107). -/
def execKeyCc (s : State) : Result :=
  if checkRange s s.a0.toNat s.a1.toNat = false then .next (s.raise .bounds)
  else .next { s with cc := s.cc.construct (s.mem.readList s.a0.toNat s.a1.toNat) }.complete

/-- `STEP.CC imm8` (`40_ciphercore.md` rule R108). -/
def execStepCc (imm8 : Byte) (s : State) : Result :=
  .next (({ s with cc := (s.cc.coreStep imm8).2 }.setR0 ((s.cc.coreStep imm8).1.setWidth 64)).complete)

/-- `XOR.CC src, len, dst` (`40_ciphercore.md` rule R109). -/
def execXorCc (s : State) : Result := .next (xorOn .cc s)

/-- `READ.CC addr, len` (`40_ciphercore.md` rule R110). -/
def execReadCc (s : State) : Result := .next (readOn .cc s)

end Sys2Proof.Machine
end

