-- ==== Sys2Proof/Machine/Cascaded.lean ====
section
/-! DEFINITION. The commands of unit `CAS` (`41_cascaded.md` section 2). -/

namespace Sys2Proof.Machine

/-- `RESET.CAS` (`41_cascaded.md` rule R135). -/
def execResetCas (s : State) : Result := .next { s with cas := s.cas.clear }.complete

/-- `KEY.CAS addr, len` (`41_cascaded.md` rule R136). -/
def execKeyCas (s : State) : Result :=
  if checkRange s s.a0.toNat s.a1.toNat = false then .next (s.raise .bounds)
  else .next { s with cas := s.cas.construct (s.mem.readList s.a0.toNat s.a1.toNat) }.complete

/-- `STEP.CAS imm8` (`41_cascaded.md` rule R137). -/
def execStepCas (imm8 : Byte) (s : State) : Result :=
  .next (({ s with cas := (s.cas.step imm8).2 }.setR0 ((s.cas.step imm8).1.setWidth 64)).complete)

/-- `XOR.CAS src, len, dst` (`41_cascaded.md` rule R138). -/
def execXorCas (s : State) : Result := .next (xorOn .cas s)

/-- `READ.CAS addr, len` (`41_cascaded.md` rule R139; that the cascade has the fill operation is rule R134). -/
def execReadCas (s : State) : Result := .next (readOn .cas s)

end Sys2Proof.Machine
end

