-- ==== Sys2Proof/Machine/Sampler.lean ====
section
/-! DEFINITION. The rejection sampler `UniformBelow` (`42_sampler.md` section 2) and the integer commands (section 3).
The loop has no iteration cap (rule R155): a command whose loop does not end never completes. It is a deterministic
loop over finitely many pairs of a unit's contents and a draw buffer, so it does not end exactly when as many
candidates as there are such pairs have been rejected. The recursion below counts that number down; no candidate that
the loop would reach is lost (assumption 6). -/

namespace Sys2Proof.Machine

/-- The value of a draw buffer: the big-endian integer of its bytes, its low `bitLen` bits (`42_sampler.md` rule
R152). -/
def candidate (bitLen : Nat) (acc : List Byte) : Nat := beNat acc % 2 ^ bitLen

/-- The rejection loop of `42_sampler.md` rule R152: fill the draw buffer, which is not cleared after a rejection, and
return the candidate if it is below `max`. `none` when the first argument is used up. -/
def drawLoop (max bitLen : Nat) : Nat → Source → List Byte → Option (Nat × Source)
  | 0, _, _ => none
  | fuel + 1, src, acc =>
    let d := src.fill acc
    if candidate bitLen d.1 < max then some (candidate bitLen d.1, d.2)
    else drawLoop max bitLen fuel d.2 d.1

/-- How many contents a unit can have: 258 bytes a lane (`10_state.md` rules R20, R24). -/
def Source.contentsCount : Source → Nat
  | .cc _ => 256 ^ 258
  | .cas _ => 256 ^ 1032

/-- The bytes drawn per iteration (`42_sampler.md` rules R152, R154). -/
def drawBytes (max : Nat) : Nat := (bitlen (max - 1) + 7) / 8

/-- `UniformBelow(u, max)` for `max >= 1` (`42_sampler.md` rule R152): the integer and the unit's contents after, or
`none` when no candidate is ever accepted. The draw buffer `ACC` exists only here, all zero at the start of every
invocation (`10_state.md` rule R35). -/
def uniformBelow (src : Source) (max : Nat) : Option (Nat × Source) :=
  if bitlen (max - 1) = 0 then some (0, src)
  else drawLoop max (bitlen (max - 1)) (src.contentsCount * 256 ^ drawBytes max) src
    (List.replicate (drawBytes max) 0#8)

/-- An integer command after its argument check (`42_sampler.md` rules R157 to R159): raise, return 0, or sample. -/
def sampleTo (u : Src) (arg : ArgResult) (s : State) : State :=
  match arg with
  | .invalid => s.raise .invalidArgument
  | .degenerate => (s.setR0 0#64).complete
  | .valid max =>
    match uniformBelow (s.source u) max with
    | none => s.hang
    | some (v, src) => ((s.putSource src).setR0 (BitVec.ofNat 64 v)).complete

/-- `UGEN` at a type (`42_sampler.md` rule R159): the type changes only which operands are refused. -/
def genericBelow (t : IntType) (u : Src) (s : State) : State :=
  sampleTo u (argCheck (typeSign t) (typeWidth t) s.a0) s

/-- `UBELOW.S unit, max` (`42_sampler.md` rule R157). -/
def execUbelowS (u : Src) (s : State) : Result := .next (sampleTo u (argCheck .signed 64 s.a0) s)

/-- `UBELOW.U unit, max` (`42_sampler.md` rule R158). -/
def execUbelowU (u : Src) (s : State) : Result := .next (sampleTo u (argCheck .unsigned 64 s.a0) s)

/-- `UGEN.U8 unit, max` (`42_sampler.md` rule R160). -/
def execUgenU8 (u : Src) (s : State) : Result := .next (genericBelow .u8 u s)

/-- `UGEN.U16 unit, max` (`42_sampler.md` rule R161). -/
def execUgenU16 (u : Src) (s : State) : Result := .next (genericBelow .u16 u s)

/-- `UGEN.U32 unit, max` (`42_sampler.md` rule R162). -/
def execUgenU32 (u : Src) (s : State) : Result := .next (genericBelow .u32 u s)

/-- `UGEN.U64 unit, max` (`42_sampler.md` rule R163). -/
def execUgenU64 (u : Src) (s : State) : Result := .next (genericBelow .u64 u s)

/-- `UGEN.I8 unit, max` (`42_sampler.md` rule R164). -/
def execUgenI8 (u : Src) (s : State) : Result := .next (genericBelow .i8 u s)

/-- `UGEN.I16 unit, max` (`42_sampler.md` rule R165). -/
def execUgenI16 (u : Src) (s : State) : Result := .next (genericBelow .i16 u s)

/-- `UGEN.I32 unit, max` (`42_sampler.md` rule R166). -/
def execUgenI32 (u : Src) (s : State) : Result := .next (genericBelow .i32 u s)

/-- `UGEN.I64 unit, max` (`42_sampler.md` rule R167). -/
def execUgenI64 (u : Src) (s : State) : Result := .next (genericBelow .i64 u s)

end Sys2Proof.Machine
end

