-- ==== Sys2Proof/Machine/Shuffle.lean ====
section
/-! DEFINITION. Permutation and shuffle (`42_sampler.md` section 4): the source's functions on lists (rules R169,
R171), and the commands on `M` (rules R170, R172). The commands follow their own pseudocode, not the functions on
lists; the statements relate the two. -/

namespace Sys2Proof.Machine

/-! ### The functions on lists -/

/-- The loop of `Permutation(u, n)` from index `i` for `steps` steps (`42_sampler.md` rule R169). -/
def permutationLoop : Nat → Nat → Source → List Nat → Option (List Nat × Source)
  | 0, _, src, result => some (result, src)
  | steps + 1, i, src, result =>
    match uniformBelow src (i + 1) with
    | none => none
    | some (j, src') => permutationLoop steps (i + 1) src' ((result.set i (result.getD j 0)).set j i)

/-- `Permutation(u, n)` (`42_sampler.md` rule R169): the list and the unit's contents after, or `none` when a draw never
ends. -/
def permutation (src : Source) (n : Nat) : Option (List Nat × Source) :=
  permutationLoop (n - 1) 1 src (List.replicate n 0)

/-- `swap r[i] and r[j]`. -/
def swapElements {α : Type} (r : List α) (i j : Nat) : List α :=
  match r[i]?, r[j]? with
  | some x, some y => (r.set i y).set j x
  | _, _ => r

/-- The loop of `Shuffle(u, seq)` from index `i` down to 1 (`42_sampler.md` rule R171). -/
def shuffleLoop {α : Type} : Nat → Source → List α → Option (List α × Source)
  | 0, src, r => some (r, src)
  | i + 1, src, r =>
    match uniformBelow src (i + 2) with
    | none => none
    | some (j, src') => shuffleLoop i src' (swapElements r (i + 1) j)

/-- `Shuffle(u, seq)` (`42_sampler.md` rule R171), for elements of any type. -/
def shuffle {α : Type} (src : Source) (seq : List α) : Option (List α × Source) :=
  shuffleLoop (seq.length - 1) src seq

/-! ### `PERM` -/

/-- The zero fill of `PERM`: `n` entries at `base`, ascending (`42_sampler.md` rule R170). -/
def zeroFill : Nat → Nat → Memory → Memory
  | 0, _, m => m
  | n + 1, base, m => zeroFill n (base + permEntryBytes) (m.writeBE base permEntryBytes 0)

/-- The insertion loop of `PERM` from entry `i` for `steps` steps (`42_sampler.md` rule R170). -/
def permLoop : Nat → Nat → Nat → Source → Memory → Option (Source × Memory)
  | 0, _, _, src, m => some (src, m)
  | steps + 1, i, base, src, m =>
    match uniformBelow src (i + 1) with
    | none => none
    | some (j, src') =>
      let m1 := m.writeBE (base + permEntryBytes * i) permEntryBytes
        (m.readBE (base + permEntryBytes * j) permEntryBytes)
      permLoop steps (i + 1) base src' (m1.writeBE (base + permEntryBytes * j) permEntryBytes i)

/-- `PERM unit, n, dst` (`42_sampler.md` rule R170): the argument check, then the range, then the effect. -/
def execPerm (u : Src) (s : State) : Result :=
  if sgn64 s.a0 < 0 then .next (s.raise .invalidArgument)
  else if checkRange s s.a2.toNat (permEntryBytes * (sgn64 s.a0).toNat) = false then .next (s.raise .bounds)
  else
    match permLoop ((sgn64 s.a0).toNat - 1) 1 s.a2.toNat (s.source u)
        (zeroFill (sgn64 s.a0).toNat s.a2.toNat s.mem) with
    | none => .next s.hang
    | some (src, m) => .next ((s.putSource src).setMem m).complete

/-! ### `SHUF` -/

/-- The copy of `SHUF`: `n` bytes one by one, ascending (`42_sampler.md` rule R172). -/
def copyLoop : Nat → Nat → Nat → Memory → Memory
  | 0, _, _, m => m
  | n + 1, a, d, m => copyLoop n (a + 1) (d + 1) (m.write d (m.read a))

/-- Swap `n` bytes at `x` with `n` bytes at `y`, byte by byte, ascending (`42_sampler.md` rule R172). -/
def swapBytes : Nat → Nat → Nat → Memory → Memory
  | 0, _, _, m => m
  | n + 1, x, y, m => swapBytes n (x + 1) (y + 1) ((m.write x (m.read y)).write y (m.read x))

/-- The swap loop of `SHUF` from element `i` down to 1, elements of `esz` bytes at `base` (`42_sampler.md` rule
R172). -/
def shufLoop (esz base : Nat) : Nat → Source → Memory → Option (Source × Memory)
  | 0, src, m => some (src, m)
  | i + 1, src, m =>
    match uniformBelow src (i + 2) with
    | none => none
    | some (j, src') => shufLoop esz base i src' (swapBytes esz (base + (i + 1) * esz) (base + j * esz) m)

/-- `SHUF unit, src, count, dst, esz` (`42_sampler.md` rule R172): both ranges, then the copy, then the swaps. -/
def execShuf (u : Src) (s : State) : Result :=
  if checkRange s s.a0.toNat (s.a1.toNat * s.a3.toNat) = false then .next (s.raise .bounds)
  else if checkRange s s.a2.toNat (s.a1.toNat * s.a3.toNat) = false then .next (s.raise .bounds)
  else
    match shufLoop s.a3.toNat s.a2.toNat (s.a1.toNat - 1) (s.source u)
        (copyLoop (s.a1.toNat * s.a3.toNat) s.a0.toNat s.a2.toNat s.mem) with
    | none => .next s.hang
    | some (src, m) => .next ((s.putSource src).setMem m).complete

end Sys2Proof.Machine
end

