-- ==== Sys2Proof/Machine/Dispatch.lean ====
section
/-! DEFINITION. What each command does: one arm for each row of the opcode table. -/

namespace Sys2Proof.Machine

/-- Run a command on the block (`30_encoding.md` rule R80): its checks, then its effect to its end. -/
def exec (i : Instr) (s : State) : Host.Outcome State Fault Refusal :=
  match i with
  -- the ciphers (40_ciphercore.md, 41_cascaded.md)
  | .resetCc => Sys2Proof.Machine.execResetCc s
  | .resetCas => Sys2Proof.Machine.execResetCas s
  | .keyCc => Sys2Proof.Machine.execKeyCc s
  | .keyCas => Sys2Proof.Machine.execKeyCas s
  | .stepCc imm8 => Sys2Proof.Machine.execStepCc imm8 s
  | .stepCas imm8 => Sys2Proof.Machine.execStepCas imm8 s
  | .xorCc => Sys2Proof.Machine.execXorCc s
  | .xorCas => Sys2Proof.Machine.execXorCas s
  | .readCc => Sys2Proof.Machine.execReadCc s
  | .readCas => Sys2Proof.Machine.execReadCas s
  -- the sampler (42_sampler.md)
  | .ubelowS src => Sys2Proof.Machine.execUbelowS src s
  | .ubelowU src => Sys2Proof.Machine.execUbelowU src s
  | .ugenU8 src => Sys2Proof.Machine.execUgenU8 src s
  | .ugenU16 src => Sys2Proof.Machine.execUgenU16 src s
  | .ugenU32 src => Sys2Proof.Machine.execUgenU32 src s
  | .ugenU64 src => Sys2Proof.Machine.execUgenU64 src s
  | .ugenI8 src => Sys2Proof.Machine.execUgenI8 src s
  | .ugenI16 src => Sys2Proof.Machine.execUgenI16 src s
  | .ugenI32 src => Sys2Proof.Machine.execUgenI32 src s
  | .ugenI64 src => Sys2Proof.Machine.execUgenI64 src s
  | .perm src => Sys2Proof.Machine.execPerm src s
  | .shuf src => Sys2Proof.Machine.execShuf src s

end Sys2Proof.Machine
end

