-- ==== Sys2Proof/Machine/HostPort.lean ====
section
/-! DEFINITION. The host's side of the interface (`43_transfer_memory_system.md` rule R184): what each access does,
which accesses are held while a command runs (`20_memory.md` rule R63), how a write to `CMD` starts a command
(`30_encoding.md` rule R80), and hard reset (`70_reset_and_hazards.md` rule R220). -/

namespace Sys2Proof.Machine

/-- The value a register reads as, zero-extended to 64 bits (`10_state.md` rules R26 to R29, R34). -/
def readReg (s : State) : Reg → Word64
  | .cmd => 0#64
  | .status => (statusWord s).setWidth 64
  | .operand k => s.operand k
  | .r0 => s.r0
  | .reserved => 0#64

/-- The lane a state-window access names (`10_state.md` rule R37). -/
def windowLane (s : State) : LaneName → Lane
  | .cc => s.cc
  | .cas 0 => s.cas.l0
  | .cas 1 => s.cas.l1
  | .cas 2 => s.cas.l2
  | .cas 3 => s.cas.l3

/-- `StateRead(u, i, x)` (`10_state.md` rule R37): the table, then `p` at 256, then `q` at 257. -/
def stateRead (s : State) (l : LaneName) (x : Fin 258) : Byte :=
  if x.val < 256 then (windowLane s l).entry (BitVec.ofNat 8 x.val)
  else if x.val = 256 then (windowLane s l).p
  else (windowLane s l).q

/-- Give the host the value its read returned. -/
def State.reply (s : State) (r : Reply) : State := { s with replies := r :: s.replies }

/-- Hard reset (`70_reset_and_hazards.md` rule R220): every lane, operand register, `R0` and `STATUS` become 0, a running
command is abandoned, and `M` holds what the event brings. What the host has issued and been told is the host's, and
stays (assumption 2). -/
def hardReset (contents : List Host.Cell) (s : State) : State :=
  { State.afterReset s.cfg (Memory.ofCells s.cfg.memBytes contents) with pending := s.pending, replies := s.replies }

/-- The host writes `w` to `CMD` while no command runs (`30_encoding.md` rule R80): ignored while halted (`10_state.md`
rule R28), the fault `ILLEGAL_COMMAND` if `w` is illegal (rule R77), else the command. -/
def writeCmd (w : CmdWord) (s : State) : Result :=
  if s.err then .next s
  else
    match decode w with
    | .error _ => .next (s.raise .illegalCommand)
    | .ok i => exec i s

/-- Perform a host access (`43_transfer_memory_system.md` rule R184). -/
def perform (a : HostAction) (s : State) : Result :=
  match a with
  | .readReg r => .next (s.reply (.reg r (readReg s r)))
  | .writeCmd w => writeCmd w s
  | .writeOperand k v => .next (s.setOperand k v)
  | .writeStatus _ => .next s
  | .writeR0 _ => .next s
  | .writeReserved _ => .next s
  | .readMem addr =>
    if addr < s.cfg.memBytes then .next (s.reply (.mem addr (s.mem.read addr))) else .fault (.absentByte addr)
  | .writeMem addr b =>
    if addr < s.cfg.memBytes then .next (s.setMem (s.mem.write addr b)) else .fault (.absentByte addr)
  | .readWindow l x => .next (s.reply (.window l x (stateRead s l x)))
  | .hardReset contents => .next (hardReset contents s)

/-- Whether an access is performed while a command runs: a read of `STATUS` (`20_memory.md` rule R63), and the event of
hard reset (`70_reset_and_hazards.md` rule R227). -/
def passesBusy : HostAction → Bool
  | .readReg .status => true
  | .hardReset _ => true
  | _ => false

/-- The access to be performed next, and those that then still wait: the first issued; while a command runs, the
first that passes (`20_memory.md` rules R59, R63). -/
def takeNext (busy : Bool) : List HostAction → Option (HostAction × List HostAction)
  | [] => none
  | a :: rest =>
    if busy = false ∨ passesBusy a = true then some (a, rest)
    else (takeNext busy rest).map fun r => (r.1, a :: r.2)

/-- One step of the machine: perform the next host access; when none can be performed nothing happens, since the
block waits for the host (`10_state.md` rule R30) or runs for ever (`70_reset_and_hazards.md` rule R227). -/
def hostStep (s : State) : Result :=
  match takeNext s.busy s.pending with
  | none => .next s
  | some (a, rest) => perform a { s with pending := rest }

/-- The host issues a write of the word to `CMD`, to be performed before anything it has issued so far. -/
def issueCommandFirst (s : State) (w : CmdWord) : State := { s with pending := .writeCmd w :: s.pending }

end Sys2Proof.Machine
end

