-- ==== Sys2Proof/Machine/Assembler.lean ====
section
/-! DEFINITION. What a line of a program stands for (`30_encoding.md` rules R81, R82): a list of host actions. The
programs of `95_test_vectors.md` section 6 are lists of such lines. -/

namespace Sys2Proof.Machine

/-- A command's line: write each listed operand register, then the encoded word to `CMD` (rule R81). -/
def commandActions (i : Instr) (operands : List Int) : List HostAction :=
  (i.operandRegs.zip operands).map (fun o => HostAction.writeOperand o.1 (BitVec.ofInt 64 o.2)) ++
    [.writeCmd (encode i)]

/-- `WRM addr, b0 b1 ...` (rule R81). -/
def wrmActions : Nat → List Byte → List HostAction
  | _, [] => []
  | a, b :: bs => .writeMem a b :: wrmActions (a + 1) bs

/-- `RDM addr, len` (rule R81). -/
def rdmActions : Nat → Nat → List HostAction
  | _, 0 => []
  | a, n + 1 => .readMem a :: rdmActions (a + 1) n

/-- The host actions a line stands for. -/
def lineActions : Line → List HostAction
  | .command i operands => commandActions i operands
  | .pseudo p u operands => commandActions (p.expand u) operands
  | .wrm addr bytes => wrmActions addr bytes
  | .rdm addr len => rdmActions addr len
  | .rdr r => [.readReg r]

/-- The host issues a program: the actions of its lines in order, after what it has issued so far. -/
def State.issueProgram (s : State) (p : List Line) : State :=
  { s with pending := s.pending ++ p.flatMap lineActions }

end Sys2Proof.Machine
end

