-- ==== Sys2Proof/Machine/Step.lean ====
section
/-! DEFINITION. One step of the machine, and where its next command comes from. -/

namespace Sys2Proof.Machine

/-- One step: the next host access is performed; a write to `CMD` runs a whole command (`00_scope.md` rule R5). -/
def step (s : State) : Host.Outcome State Fault Refusal := hostStep s

/-- `s` with the command word `w` issued as the host's next access, so that the next step runs it. The block fetches
nothing (`10_state.md` rule R30): its next command is the next word the host writes to `CMD`. -/
def State.withFetchWord (s : State) (nbits w : Nat) : State :=
  issueCommandFirst s (BitVec.ofNat 32 (w % 2 ^ nbits))

end Sys2Proof.Machine
end

