-- ==== Sys2Proof/Safety.lean ====
section
/-! DEFINITION. The terms in which claims about the machine are made: which unit, bytes and registers a command uses,
when it faults (from the tables of `60_exceptions.md`, not from the meanings), the keystream and the candidates of the
sampler (from the text of `42_sampler.md` rules R152 and R153, not from its loop), and what a sound state is. -/

namespace Sys2Proof.Machine

/-! ### What a command uses -/

/-- The unit whose contents a source is. -/
def Source.unit : Source → Src
  | .cc _ => .cc
  | .cas _ => .cas

/-- The unit a command works on: the one in its name, or the one its field `SRC` selects (`30_encoding.md` rule R73). -/
def unitOf : Instr → Src
  | .resetCc | .keyCc | .stepCc _ | .xorCc | .readCc => .cc
  | .resetCas | .keyCas | .stepCas _ | .xorCas | .readCas => .cas
  | .ubelowS u | .ubelowU u | .ugenU8 u | .ugenU16 u | .ugenU32 u | .ugenU64 u
  | .ugenI8 u | .ugenI16 u | .ugenI32 u | .ugenI64 u | .perm u | .shuf u => u

/-- The entry points of the integer sampler, with the type each takes its operand at (`42_sampler.md` rules R157 to
R167): the two native-width ones are 64 bits wide. -/
def samplerEntry : Instr → Option (Signedness × Nat)
  | .ubelowS _ => some (.signed, 64)
  | .ubelowU _ => some (.unsigned, 64)
  | .ugenU8 _ => some (.unsigned, 8)
  | .ugenU16 _ => some (.unsigned, 16)
  | .ugenU32 _ => some (.unsigned, 32)
  | .ugenU64 _ => some (.unsigned, 64)
  | .ugenI8 _ => some (.signed, 8)
  | .ugenI16 _ => some (.signed, 16)
  | .ugenI32 _ => some (.signed, 32)
  | .ugenI64 _ => some (.signed, 64)
  | .resetCc | .resetCas | .keyCc | .keyCas | .stepCc _ | .stepCas _ | .xorCc | .xorCas | .readCc | .readCas
  | .perm _ | .shuf _ => none

/-- Whether a command is one of the twelve sampler commands, the only ones that can run for ever
(`70_reset_and_hazards.md` rule R227). -/
def usesSampler : Instr → Bool
  | .ubelowS _ | .ubelowU _ | .ugenU8 _ | .ugenU16 _ | .ugenU32 _ | .ugenU64 _
  | .ugenI8 _ | .ugenI16 _ | .ugenI32 _ | .ugenI64 _ | .perm _ | .shuf _ => true
  | .resetCc | .resetCas | .keyCc | .keyCas | .stepCc _ | .stepCas _ | .xorCc | .xorCas | .readCc | .readCas => false

/-- Whether a command has a result in `R0` (`10_state.md` rule R27). -/
def hasResult : Instr → Bool
  | .stepCc _ | .stepCas _ | .readCc | .readCas
  | .ubelowS _ | .ubelowU _ | .ugenU8 _ | .ugenU16 _ | .ugenU32 _ | .ugenU64 _
  | .ugenI8 _ | .ugenI16 _ | .ugenI32 _ | .ugenI64 _ => true
  | .resetCc | .resetCas | .keyCc | .keyCas | .xorCc | .xorCas | .perm _ | .shuf _ => false

/-- An address lies in the `n` bytes at `base`. -/
abbrev inRange (a base n : Nat) : Prop := base ≤ a ∧ a < base + n

/-- The bytes of `M` a command stores to (`43_transfer_memory_system.md` rule R182). -/
def storesTo (i : Instr) (s : State) (a : Nat) : Prop :=
  match i with
  | .xorCc | .xorCas => inRange a s.a2.toNat s.a1.toNat
  | .readCc | .readCas => inRange a s.a0.toNat s.a1.toNat
  | .perm _ => inRange a s.a2.toNat (8 * (sgn64 s.a0).toNat)
  | .shuf _ => inRange a s.a2.toNat (s.a1.toNat * s.a3.toNat)
  | .resetCc | .resetCas | .keyCc | .keyCas | .stepCc _ | .stepCas _
  | .ubelowS _ | .ubelowU _ | .ugenU8 _ | .ugenU16 _ | .ugenU32 _ | .ugenU64 _
  | .ugenI8 _ | .ugenI16 _ | .ugenI32 _ | .ugenI64 _ => False

/-- The bytes of `M` whose values before the command it uses (`43_transfer_memory_system.md` rule R182): `PERM` reads
only entries it has filled. -/
def readsFrom (i : Instr) (s : State) (a : Nat) : Prop :=
  match i with
  | .keyCc | .keyCas | .xorCc | .xorCas | .readCc | .readCas => inRange a s.a0.toNat s.a1.toNat
  | .shuf _ => inRange a s.a0.toNat (s.a1.toNat * s.a3.toNat)
  | .resetCc | .resetCas | .stepCc _ | .stepCas _
  | .ubelowS _ | .ubelowU _ | .ugenU8 _ | .ugenU16 _ | .ugenU32 _ | .ugenU64 _
  | .ugenI8 _ | .ugenI16 _ | .ugenI32 _ | .ugenI64 _ | .perm _ => False

/-! ### When a command faults -/

/-- `INVALID_ARGUMENT` is raised exactly when this holds (`60_exceptions.md` rule R191, cases (a) to (d)). -/
def invalidArgument (i : Instr) (s : State) : Prop :=
  match i with
  | .perm _ => sgn64 s.a0 < 0
  | i =>
    match samplerEntry i with
    | some (.signed, W) => sgn64 s.a0 ≤ 0 ∨ sgn64 s.a0 > 2 ^ (W - 1) - 1
    | some (.unsigned, W) => s.a0.toNat > 2 ^ W - 1
    | none => False

/-- A `CheckRange` of the command fails (`60_exceptions.md` rule R193). -/
def rangeOutside (i : Instr) (s : State) : Prop :=
  match i with
  | .keyCc | .keyCas | .readCc | .readCas => s.a0.toNat + s.a1.toNat > s.cfg.memBytes
  | .xorCc | .xorCas =>
    s.a0.toNat + s.a1.toNat > s.cfg.memBytes ∨ s.a2.toNat + s.a1.toNat > s.cfg.memBytes
  | .perm _ => s.a2.toNat + 8 * (sgn64 s.a0).toNat > s.cfg.memBytes
  | .shuf _ =>
    s.a0.toNat + s.a1.toNat * s.a3.toNat > s.cfg.memBytes ∨ s.a2.toNat + s.a1.toNat * s.a3.toNat > s.cfg.memBytes
  | .resetCc | .resetCas | .stepCc _ | .stepCas _
  | .ubelowS _ | .ubelowU _ | .ugenU8 _ | .ugenU16 _ | .ugenU32 _ | .ugenU64 _
  | .ugenI8 _ | .ugenI16 _ | .ugenI32 _ | .ugenI64 _ => False

/-- `TMAX` of an operand read as a given type (`30_encoding.md` rule R74). -/
def typeMax (sg : Signedness) (W : Nat) : Nat :=
  match sg with
  | .signed => 2 ^ (W - 1) - 1
  | .unsigned => 2 ^ W - 1

/-! ### The keystream and the sampler's candidates -/

/-- A source after `n` steps with input 0. -/
def Source.after : Source → Nat → Source
  | src, 0 => src
  | src, n + 1 => Source.after (src.step 0#8).2 n

/-- Byte `n` of a source's keystream, counted from 0: the output of the step with input 0 made after `n` of them. -/
def Source.keystream (src : Source) (n : Nat) : Byte := ((src.after n).step 0#8).1

/-- The lane a key gives (`40_ciphercore.md` rule R103): from the all-zero lane, one `CoreStep` for each byte of the key
in ascending order and then one for each of 0, 1, ..., 255. -/
def keyedLane (key : List Byte) : Lane :=
  List.foldl (fun L x => (L.coreStep x).2) Lane.zero (key ++ (List.range 256).map (BitVec.ofNat 8))

/-- A list of bytes encrypted under a lane: byte `i` XOR keystream byte `i` (`40_ciphercore.md` rule R104). -/
def encryptUnder (L : Lane) (buf : List Byte) : List Byte :=
  (List.range buf.length).map fun i => buf.getD i 0#8 ^^^ (Source.cc L).keystream i

/-- `D_(t+1)` of `42_sampler.md` rule R153: the big-endian integer of the `k` keystream bytes drawn in iteration `t`,
counted from 0. -/
def Source.drawn (src : Source) (k t : Nat) : Nat :=
  beNat ((List.range k).map fun i => src.keystream (t * k + i))

/-- The exclusive or of the first `t` draws of `k` bytes each (`42_sampler.md` rules R152, R153). -/
def Source.drawnXor (src : Source) (k : Nat) : Nat → Nat
  | 0 => 0
  | t + 1 => Source.drawnXor src k t ^^^ src.drawn k t

/-- The candidate of iteration `t`, counted from 0: `(D_1 xor ... xor D_(t+1)) mod 2^bit_len` (`42_sampler.md` rule
R153). -/
def Source.candidateAt (src : Source) (max t : Nat) : Nat :=
  src.drawnXor (drawBytes max) (t + 1) % 2 ^ bitlen (max - 1)

/-- Iteration `t`, counted from 0, is the first whose candidate is below `max`. -/
def FirstAccepted (src : Source) (max t : Nat) : Prop :=
  src.candidateAt max t < max ∧ ∀ r < t, max ≤ src.candidateAt max r

/-- No iteration's candidate is below `max`: the loop never ends (`42_sampler.md` rule R155). -/
def NeverAccepts (src : Source) (max : Nat) : Prop := ∀ t, max ≤ src.candidateAt max t

/-- The masking of the source's signed-range variant (`42_sampler.md` rule R153): the top byte of the draw buffer is
masked in place to `r` bits, `r = bit_len mod 8`, or 8 if that is 0. -/
def maskTop (bitLen : Nat) : List Byte → List Byte
  | [] => []
  | b :: bs => (b &&& BitVec.ofNat 8 (2 ^ (if bitLen % 8 = 0 then 8 else bitLen % 8) - 1)) :: bs

/-- The rejection loop with the masking of the signed-range variant (`42_sampler.md` rule R153, left column): the masked
buffer is the one the next iteration draws into. -/
def maskedLoop (max bitLen : Nat) : Nat → Source → List Byte → Option (Nat × Source)
  | 0, _, _ => none
  | fuel + 1, src, acc =>
    let d := src.fill acc
    let masked := maskTop bitLen d.1
    if beNat masked < max then some (beNat masked, d.2) else maskedLoop max bitLen fuel d.2 masked

/-- The elements of a sequence in `M`: `n` elements of `esz` bytes at `base` (`42_sampler.md` rule R172). -/
def elements (m : Memory) (base n esz : Nat) : List (List Byte) :=
  (List.range n).map fun i => m.readList (base + i * esz) esz

/-- Byte `j` of the destination after bytes have been copied one by one, ascending, from `src` to `dst`: with the
destination `d > 0` bytes above the source, source byte `j` is from the `d`th on a byte the copy has already written, so
that the first `d` bytes repeat; else it is as it was (`20_memory.md` rule R64, `42_sampler.md` rule R172). -/
def copiedByte (m : Memory) (src dst j : Nat) : Byte :=
  if src < dst then m.read (src + j % (dst - src)) else m.read (src + j)

/-- Two ranges of `n` bytes are equal or do not meet. -/
abbrev EqualOrDisjoint (a b n : Nat) : Prop := a = b ∨ a + n ≤ b ∨ b + n ≤ a

/-! ### Sound states -/

/-- Everything the block and its interface hold but the lanes, `R0`, `STATUS` and `M` is equal: the operand registers,
the parameter, the accesses issued and the values returned. -/
def SameInputs (s t : State) : Prop :=
  (∀ k, t.operand k = s.operand k) ∧ t.cfg = s.cfg ∧ t.pending = s.pending ∧ t.replies = s.replies

/-- What holds of the block whatever has been done to it: the parameter is legal; `M` is in its canonical form and has
no byte at an address that does not exist; `ERRCODE` is one of the codes of `10_state.md` rule R29 and is 0 exactly when
`ERR` is; and no command runs while the block is halted. -/
structure State.Inv (s : State) : Prop where
  cfgValid : s.cfg.Valid
  memWf : Memory.wf s.mem
  memBelow : ∀ c ∈ s.mem, c.1 < s.cfg.memBytes
  errcodeLegal : s.errcode = 0#4 ∨ s.errcode = 1#4 ∨ s.errcode = 2#4 ∨ s.errcode = 3#4
  errIffCode : s.err = true ↔ s.errcode ≠ 0#4
  notBusyHalted : ¬(s.busy = true ∧ s.err = true)

/-- The block is idle: no command runs and it is not halted, so that a command written to `CMD` starts (`10_state.md`
rule R28). -/
def State.Idle (s : State) : Prop := s.busy = false ∧ s.err = false

end Sys2Proof.Machine
end

