-- ==== Sys2Proof/Certificates/Slice0/Obligations.lean ====
section
/-! DEFINITION. The statements about the block, each from the numbered rules of `spec/`. Nothing is proved here. -/

open Sys2Proof Sys2Proof.Machine

/-! ### Reset -/

/-- `10_state.md` rule R39: after hard reset every lane, operand register, `R0` and `STATUS` are 0; the contents of `M`
and the parameter are arguments. Which of them `State.reset` takes is the model's choice (assumptions 1 and 3), and
nothing is said of it but that it is one of them. -/
def Obligations.AfterResetEverythingIsZero : Prop :=
  (∃ cfg mem, State.reset = State.afterReset cfg mem) ∧
  ∀ (cfg : Config) (mem : Memory),
    let t := State.afterReset cfg mem
    (∀ L ∈ [t.cc, t.cas.l0, t.cas.l1, t.cas.l2, t.cas.l3], (∀ j, L.entry j = 0#8) ∧ L.p = 0#8 ∧ L.q = 0#8) ∧
    t.a0 = 0#64 ∧ t.a1 = 0#64 ∧ t.a2 = 0#64 ∧ t.a3 = 0#64 ∧ t.r0 = 0#64 ∧ statusWord t = 0#32 ∧ t.mem = mem

/-- `70_reset_and_hazards.md` rule R220: hard reset, when it is the access taken (which it is even while a command runs
for ever), zeroes every lane, operand register, `R0` and `STATUS`, and leaves any contents of `M` whatever. That the event
brings the contents is assumption 4; that what the host has issued and been told stays is assumption 2. -/
def Obligations.HardResetZeroesTheBlock : Prop :=
  ∀ (s : State) (m : Memory) (rest : List HostAction),
    takeNext s.busy s.pending = some (.hardReset m, rest) → Memory.wf m → (∀ c ∈ m, c.1 < s.cfg.memBytes) →
    ∃ t, step s = .next t ∧
      (∀ L ∈ [t.cc, t.cas.l0, t.cas.l1, t.cas.l2, t.cas.l3], (∀ j, L.entry j = 0#8) ∧ L.p = 0#8 ∧ L.q = 0#8) ∧
      t.a0 = 0#64 ∧ t.a1 = 0#64 ∧ t.a2 = 0#64 ∧ t.a3 = 0#64 ∧ t.r0 = 0#64 ∧ statusWord t = 0#32 ∧ t.Idle ∧
      t.mem = m ∧ t.cfg = s.cfg ∧ t.pending = rest ∧ t.replies = s.replies

/-! ### Encoding -/

/-- `30_encoding.md` rules R70 to R78: every command is read back from its word, with every operand. -/
def Obligations.DecodeReadsEncodedCommand : Prop := ∀ i : Instr, decode (encode i) = .ok i

/-- `30_encoding.md` rules R70 to R78: no bit of a legal word is dropped. -/
def Obligations.EncodeRestoresDecodedWord : Prop := ∀ (w : CmdWord) (i : Instr), decode w = .ok i → encode i = w

/-- `30_encoding.md` rule R77: which words are illegal. -/
def Obligations.IllegalWordsExactly : Prop :=
  ∀ w : CmdWord, (∃ e, decode w = .error e) ↔
    (w.extractLsb' 0 8 ∉ [0x01#8, 0x02#8, 0x03#8, 0x04#8, 0x05#8, 0x10#8, 0x11#8, 0x12#8, 0x18#8, 0x19#8] ∨
      w.extractLsb' 24 8 ≠ 0#8 ∨ w.extractLsb' 15 1 ≠ 0#1 ∨ w.extractLsb' 9 3 ≠ 0#3 ∨
      (w.extractLsb' 12 3 ≠ 0#3 ∧ w.extractLsb' 0 8 ≠ 0x12#8) ∨
      (w.extractLsb' 16 8 ≠ 0#8 ∧ w.extractLsb' 0 8 ≠ 0x03#8))

/-- `30_encoding.md` rules R78, R79: a word matches exactly one row of the opcode table, the row of the command it
decodes to, or is illegal and matches none. -/
def Obligations.EveryWordMatchesItsRowOrIsIllegal : Prop :=
  ∀ w : CmdWord,
    (∃ i, decode w = .ok i ∧
      (opcodeTable.filter fun r => decide (w &&& r.mask = r.pattern)).map (·.mnemonic) = [i.mnemonic]) ∨
    ((∃ e, decode w = .error e) ∧ opcodeTable.filter (fun r => decide (w &&& r.mask = r.pattern)) = [])

/-- `30_encoding.md` rule R83: the words of its examples, and the host actions of its lines. -/
def Obligations.ExampleWordsDecode : Prop :=
  decode 0x00530003#32 = .ok (.stepCc 0x53#8) ∧ decode 0x00000103#32 = .ok (.stepCas 0#8) ∧
  decode 0x00000002#32 = .ok .keyCc ∧ decode 0x00005112#32 = .ok (.ugenI16 .cas) ∧
  decode 0x00000018#32 = .ok (.perm .cc) ∧ decode 0x00000119#32 = .ok (.shuf .cas) ∧
  (∃ e, decode 0x00000000#32 = .error e) ∧ (∃ e, decode 0x00010002#32 = .error e) ∧
  (∃ e, decode 0x00001010#32 = .error e) ∧
  lineActions (.command .keyCc [0x100, 9]) =
    [.writeOperand .a0 0x100#64, .writeOperand .a1 9#64, .writeCmd 0x00000002#32] ∧
  lineActions (.command (.ugenI16 .cas) [1000]) = [.writeOperand .a0 1000#64, .writeCmd 0x00005112#32] ∧
  lineActions (.command (.perm .cc) [10, 0x200]) =
    [.writeOperand .a0 10#64, .writeOperand .a2 0x200#64, .writeCmd 0x00000018#32] ∧
  lineActions (.command (.shuf .cas) [0x40, 8, 0x80, 1]) =
    [.writeOperand .a0 0x40#64, .writeOperand .a1 8#64, .writeOperand .a2 0x80#64, .writeOperand .a3 1#64,
      .writeCmd 0x00000119#32]

/-! ### Starting a command, and the host's accesses -/

/-- `30_encoding.md` rule R80: a legal word written to `CMD` while the block is idle runs its command, on the state in
which the write is no longer pending; the step adds nothing else. -/
def Obligations.StepRunsTheDecodedCommand : Prop :=
  ∀ (s : State) (w : CmdWord) (rest : List HostAction) (i : Instr),
    s.Idle → s.pending = .writeCmd w :: rest → decode w = .ok i → step s = exec i { s with pending := rest }

/-- `60_exceptions.md` rule R192: a word that matches no row raises `ILLEGAL_COMMAND`, and nothing but `STATUS` changes. -/
def Obligations.IllegalCommandIsRaised : Prop :=
  ∀ (s : State) (w : CmdWord) (rest : List HostAction),
    s.Idle → s.pending = .writeCmd w :: rest → (∀ r ∈ opcodeTable, w &&& r.mask ≠ r.pattern) →
    step s = .next { s with pending := rest, err := true, errcode := 2#4 }

/-- `10_state.md` rule R28: a write to `CMD` while halted is ignored. -/
def Obligations.CommandIsIgnoredWhileHalted : Prop :=
  ∀ (s : State) (w : CmdWord) (rest : List HostAction),
    s.busy = false → s.err = true → s.pending = .writeCmd w :: rest → step s = .next { s with pending := rest }

/-- `60_exceptions.md` rules R198, R199: however many steps follow a fault, without a hard reset the block changes no
lane, not `R0` and not `STATUS`, and a byte of `M` only where the host writes it. -/
def Obligations.HaltedBlockStaysInert : Prop :=
  ∀ (n : Nat) (s t : State),
    s.err = true → Memory.wf s.mem → (∀ c, .hardReset c ∉ s.pending) → Host.Core.run Sys2Proof.core n s = .next t →
    t.cc = s.cc ∧ t.cas = s.cas ∧ t.r0 = s.r0 ∧ t.busy = s.busy ∧ t.err = true ∧ t.errcode = s.errcode ∧
    ∀ a, (∀ b, .writeMem a b ∉ s.pending) → t.mem.read a = s.mem.read a

/-- `20_memory.md` rule R63: while a command runs, a read of `STATUS` is performed and returns `BUSY = 1`; every other
access is held, neither performed nor dropped. That a `STATUS` read issued after a held access is performed before it
is assumption 7. -/
def Obligations.BusyHoldsAllButStatusReads : Prop :=
  ∀ (s : State) (held rest : List HostAction),
    s.busy = true → (∀ a ∈ held, a ≠ .readReg .status ∧ ∀ c, a ≠ .hardReset c) →
    (s.pending = held → step s = .next s) ∧
    (s.pending = held ++ .readReg .status :: rest →
      step s = .next { s with
        pending := held ++ rest, replies := .reg .status ((statusWord s).setWidth 64) :: s.replies } ∧
      (statusWord s).getLsbD 0 = true)

/-- `43_transfer_memory_system.md` rule R184, the columns with `BUSY = 0`: what the register accesses of the host do,
whether the block is halted or not. -/
def Obligations.RegisterAccessesFollowTheTable : Prop :=
  ∀ (s : State) (a : HostAction) (rest : List HostAction), s.busy = false → s.pending = a :: rest →
    (∀ r, a = .readReg r → step s = .next { s with
      pending := rest
      replies := .reg r (match r with
        | .cmd => 0#64
        | .status => (0#24 ++ s.errcode ++ 0#2 ++ BitVec.ofBool s.err ++ 0#1).setWidth 64
        | .operand .a0 => s.a0
        | .operand .a1 => s.a1
        | .operand .a2 => s.a2
        | .operand .a3 => s.a3
        | .r0 => s.r0
        | .reserved => 0#64) :: s.replies }) ∧
    (∀ v, a = .writeOperand .a0 v → step s = .next { s with pending := rest, a0 := v }) ∧
    (∀ v, a = .writeOperand .a1 v → step s = .next { s with pending := rest, a1 := v }) ∧
    (∀ v, a = .writeOperand .a2 v → step s = .next { s with pending := rest, a2 := v }) ∧
    (∀ v, a = .writeOperand .a3 v → step s = .next { s with pending := rest, a3 := v }) ∧
    (∀ v, a = .writeStatus v → step s = .next { s with pending := rest }) ∧
    (∀ v, a = .writeR0 v → step s = .next { s with pending := rest }) ∧
    (∀ v, a = .writeReserved v → step s = .next { s with pending := rest })

/-- `10_state.md` rule R37: the state window returns, of the lane named (`CC`, or lane 0, 1, 2 or 3 of `CAS`), `S[x]` for
`x` in 0..255, `p` for 256 and `q` for 257, and has no effect on the block. -/
def Obligations.StateWindowReadsTheLane : Prop :=
  ∀ (s : State) (l : LaneName) (x : Fin 258) (rest : List HostAction),
    s.busy = false → s.pending = .readWindow l x :: rest →
    let L : Lane := match l with
      | .cc => s.cc
      | .cas 0 => s.cas.l0
      | .cas 1 => s.cas.l1
      | .cas 2 => s.cas.l2
      | .cas 3 => s.cas.l3
    ∃ b, step s = .next { s with pending := rest, replies := .window l x b :: s.replies } ∧
      (∀ h : x.val < 256, b = L.S[x.val]) ∧ (x.val = 256 → b = L.p) ∧ (x.val = 257 → b = L.q)

/-- `20_memory.md` rule R50, `43_transfer_memory_system.md` rule R184: the host's write of a byte of `M` changes that byte
and nothing else of the block, its read returns the byte and changes nothing of the block, whether the block is halted or
not; so what is read is the last value written. -/
def Obligations.HostReadsBackWhatItWrote : Prop :=
  ∀ (s : State) (a : Nat) (rest : List HostAction), s.busy = false → a < s.cfg.memBytes →
    (∀ b, s.pending = .writeMem a b :: rest → Memory.wf s.mem →
      ∃ m, step s = .next { s with pending := rest, mem := m } ∧ Memory.wf m ∧
        ∀ x, m.read x = if x = a then b else s.mem.read x) ∧
    (s.pending = .readMem a :: rest →
      step s = .next { s with pending := rest, replies := .mem a (s.mem.read a) :: s.replies }) ∧
    (∀ b x, s.pending = .writeMem a b :: .readMem x :: rest → Memory.wf s.mem → x < s.cfg.memBytes →
      ∃ t, Host.Core.run Sys2Proof.core 2 s = .next t ∧
        t.replies = .mem x (if x = a then b else s.mem.read x) :: s.replies ∧ t.pending = rest)

/-- The only way a step of the model stops is a host access to a byte that does not exist. That it stops there is the
model's choice (assumption 9): `20_memory.md` rule R50 says which bytes exist and rule R56 leaves such an access to the
platform. The block's own faults (`60_exceptions.md` rule R196) leave a next state. -/
def Obligations.StepStopsOnlyOnAbsentBytes : Prop :=
  ∀ s : State, (∀ r, step s ≠ .refused r) ∧
    ∀ f, step s = .fault f ↔ ∃ a, f = .absentByte a ∧ s.cfg.memBytes ≤ a ∧ s.busy = false ∧
      ∃ rest, s.pending = .readMem a :: rest ∨ ∃ b, s.pending = .writeMem a b :: rest

/-! ### Faults -/

/-- `60_exceptions.md` rule R196 and `10_state.md` rule R29: what raising a fault writes, and the word `STATUS` then
reads as. -/
def Obligations.RaisingWritesOnlyStatus : Prop :=
  ∀ s : State,
    (s.raise .invalidArgument = { s with errcode := 1#4, err := true, busy := false } ∧
      statusWord (s.raise .invalidArgument) = 0x00000012#32) ∧
    (s.raise .illegalCommand = { s with errcode := 2#4, err := true, busy := false } ∧
      statusWord (s.raise .illegalCommand) = 0x00000022#32) ∧
    (s.raise .bounds = { s with errcode := 3#4, err := true, busy := false } ∧
      statusWord (s.raise .bounds) = 0x00000032#32)

/-- `60_exceptions.md` rule R191: `INVALID_ARGUMENT` is raised exactly in its cases; `max = 0` on an unsigned entry
point is no fault and returns 0. -/
def Obligations.InvalidArgumentExactly : Prop :=
  (∀ (i : Instr) (s : State), s.err = false →
    (exec i s = .next { s with errcode := 1#4, err := true, busy := false } ↔ invalidArgument i s)) ∧
  ∀ (i : Instr) (W : Nat) (s : State), samplerEntry i = some (.unsigned, W) → s.a0 = 0#64 →
    exec i s = .next { s with r0 := 0#64, busy := false }

/-- `60_exceptions.md` rules R193, R195: `BOUNDS` is raised exactly when a range does not lie inside `M`, and only after
the argument check has passed. -/
def Obligations.BoundsExactly : Prop :=
  ∀ (i : Instr) (s : State), s.err = false →
    (exec i s = .next { s with errcode := 3#4, err := true, busy := false } ↔
      ¬invalidArgument i s ∧ rangeOutside i s)

/-- `60_exceptions.md` rule R197: a command that faults changes nothing but `STATUS`. -/
def Obligations.FaultsArePrecise : Prop :=
  ∀ (i : Instr) (s t : State), s.err = false → exec i s = .next t → t.err = true →
    t = { s with busy := t.busy, err := t.err, errcode := t.errcode }

/-! ### The cipher -/

/-- `40_ciphercore.md` rule R100 with the aliasing of rule R102 (c): the new cursors, the one entry written, the byte
returned, and every other entry unchanged. -/
def Obligations.CoreStepWritesOneEntry : Prop :=
  ∀ (L : Lane) (x : Byte),
    let p := L.p + 1#8
    let t := L.entry p + x
    let q := L.q + t
    let v := t + ((if q = p then t else L.entry q) + p)
    (L.coreStep x).1 = v ∧ (L.coreStep x).2.p = p ∧ (L.coreStep x).2.q = q ∧
    ∀ j, (L.coreStep x).2.entry j = if j = p then v else L.entry j

/-- `40_ciphercore.md` rule R104 and `41_cascaded.md` rule R133: byte `i` of the result is byte `i` of the buffer XOR
keystream byte `i`, whatever the other bytes are, and the state advances by the length of the buffer. -/
def Obligations.KeystreamXorIsBytewise : Prop :=
  (∀ (L : Lane) (buf : List Byte),
    (L.keystreamXor buf).1 = encryptUnder L buf ∧
    Source.cc (L.keystreamXor buf).2 = (Source.cc L).after buf.length) ∧
  ∀ (c : Cascade) (buf : List Byte),
    (c.keystreamXor buf).1 =
      (List.range buf.length).map (fun i => buf.getD i 0#8 ^^^ (Source.cas c).keystream i) ∧
    Source.cas (c.keystreamXor buf).2 = (Source.cas c).after buf.length

/-- `40_ciphercore.md` rule R106, `41_cascaded.md` rule R135, `70_reset_and_hazards.md` rule R221: the two `RESET`
commands, words 0x00000001 and 0x00000101, zero the lanes of their unit and change nothing else. -/
def Obligations.ResetCommandsZeroTheirUnit : Prop :=
  encode .resetCc = 0x00000001#32 ∧ encode .resetCas = 0x00000101#32 ∧
  ∀ s : State,
    (∃ l, exec .resetCc s = .next { s with cc := l, busy := false } ∧
      (∀ j, l.entry j = 0#8) ∧ l.p = 0#8 ∧ l.q = 0#8) ∧
    (∃ c : Cascade, exec .resetCas s = .next { s with cas := c, busy := false } ∧
      ∀ l ∈ [c.l0, c.l1, c.l2, c.l3], (∀ j, l.entry j = 0#8) ∧ l.p = 0#8 ∧ l.q = 0#8)

/-- `40_ciphercore.md` rules R103, R107: `KEY.CC` leaves lane `CC` as the key's bytes and the warm-up make it from the
all-zero lane, at `p = A1 mod 256`, and changes nothing else. -/
def Obligations.KeyCcKeysTheLane : Prop :=
  ∀ s : State, s.a0.toNat + s.a1.toNat ≤ s.cfg.memBytes →
    exec .keyCc s = .next { s with
      cc := keyedLane (s.mem.readList s.a0.toNat s.a1.toNat), busy := false } ∧
    (keyedLane (s.mem.readList s.a0.toNat s.a1.toNat)).p = s.a1.setWidth 8

/-- `41_cascaded.md` rules R132, R136: `KEY.CAS` keys lane 0 from the key and each further lane from the original key
encrypted under the lane before it, which that advances by the key's length, and changes nothing else. -/
def Obligations.KeyCasKeysTheLanesInChain : Prop :=
  ∀ s : State, s.a0.toNat + s.a1.toNat ≤ s.cfg.memBytes →
    let key := s.mem.readList s.a0.toNat s.a1.toNat
    let L0 := keyedLane key
    let L1 := keyedLane (encryptUnder L0 key)
    let L2 := keyedLane (encryptUnder L1 key)
    let L3 := keyedLane (encryptUnder L2 key)
    ∃ c : Cascade, exec .keyCas s = .next { s with cas := c, busy := false } ∧
      Source.cc c.l0 = (Source.cc L0).after key.length ∧ Source.cc c.l1 = (Source.cc L1).after key.length ∧
      Source.cc c.l2 = (Source.cc L2).after key.length ∧ c.l3 = L3

/-- `41_cascaded.md` rule R140: the position cursors after `KEY.CAS` with a key of `n` bytes. -/
def Obligations.CascadePositionsAfterKeying : Prop :=
  ∀ s : State, s.a0.toNat + s.a1.toNat ≤ s.cfg.memBytes →
    ∃ t, exec .keyCas s = .next t ∧
      t.cas.l0.p = BitVec.ofNat 8 (2 * s.a1.toNat) ∧ t.cas.l1.p = BitVec.ofNat 8 (2 * s.a1.toNat) ∧
      t.cas.l2.p = BitVec.ofNat 8 (2 * s.a1.toNat) ∧ t.cas.l3.p = BitVec.ofNat 8 s.a1.toNat

/-- `41_cascaded.md` rules R136, R142: with the empty key the four lanes are equal. -/
def Obligations.EmptyKeyMakesEqualLanes : Prop :=
  ∀ s : State, s.a1 = 0#64 → s.a0.toNat ≤ s.cfg.memBytes →
    ∃ t, exec .keyCas s = .next t ∧ t.cas.l0 = keyedLane [] ∧ t.cas.l1 = t.cas.l0 ∧ t.cas.l2 = t.cas.l0 ∧
      t.cas.l3 = t.cas.l0

/-- `40_ciphercore.md` rule R112, `41_cascaded.md` rule R141: the unit after `KEY` depends only on the key's bytes, not
on what it held, where the key lies or anything else of the block. -/
def Obligations.KeyingForgetsThePast : Prop :=
  ∀ (u : Src) (s s' : State), s.a0.toNat + s.a1.toNat ≤ s.cfg.memBytes → s'.a0.toNat + s'.a1.toNat ≤ s'.cfg.memBytes →
    s'.mem.readList s'.a0.toNat s'.a1.toNat = s.mem.readList s.a0.toNat s.a1.toNat →
    ∃ t t', exec (Pseudo.construct.expand u) s = .next t ∧ exec (Pseudo.construct.expand u) s' = .next t' ∧
      t'.source u = t.source u

/-- `40_ciphercore.md` rule R108, `41_cascaded.md` rules R131, R137: `STEP.CC` makes one step of lane `CC`; `STEP.CAS`
one of each lane of `CAS`, lane 0 on the input and each further lane on the output of the one before; `R0` is the last
output, zero-extended, and nothing else changes. Their words are `0x00000003 or (imm8 << 16)` and
`0x00000103 or (imm8 << 16)`. -/
def Obligations.StepCommandsReturnTheByte : Prop :=
  ∀ (x : Byte) (s : State),
    encode (.stepCc x) = 0x00000003#32 ||| (x.setWidth 32 <<< 16) ∧
    encode (.stepCas x) = 0x00000103#32 ||| (x.setWidth 32 <<< 16) ∧
    exec (.stepCc x) s = .next { s with
      cc := (s.cc.coreStep x).2, r0 := (s.cc.coreStep x).1.setWidth 64, busy := false } ∧
    ∃ y0 y1 y2 y3 l0 l1 l2 l3, s.cas.l0.coreStep x = (y0, l0) ∧ s.cas.l1.coreStep y0 = (y1, l1) ∧
      s.cas.l2.coreStep y1 = (y2, l2) ∧ s.cas.l3.coreStep y2 = (y3, l3) ∧
      exec (.stepCas x) s = .next { s with
        cas := { l0 := l0, l1 := l1, l2 := l2, l3 := l3 }, r0 := y3.setWidth 64, busy := false }

/-- `40_ciphercore.md` rule R109, `41_cascaded.md` rule R138, `20_memory.md` rule R64: `XOR` on either unit (the
instructions `xorCc` and `xorCas`, which `ENCRYPT` is another name of, rule R82), for every placement of the
two ranges: destination byte `j` is source byte `j` XOR keystream byte `j`, where a source byte that the command has
already written is read as written. -/
def Obligations.XorWritesKeystreamXor : Prop :=
  ∀ (u : Src) (s : State), Memory.wf s.mem →
    s.a0.toNat + s.a1.toNat ≤ s.cfg.memBytes → s.a2.toNat + s.a1.toNat ≤ s.cfg.memBytes →
    ∃ t, exec (Pseudo.encrypt.expand u) s = .next t ∧
      t.source u = (s.source u).after s.a1.toNat ∧ (∀ u', u' ≠ u → t.source u' = s.source u') ∧
      t.r0 = s.r0 ∧ t.busy = false ∧ t.err = s.err ∧ t.errcode = s.errcode ∧ SameInputs s t ∧
      (∀ a, ¬inRange a s.a2.toNat s.a1.toNat → t.mem.read a = s.mem.read a) ∧
      ∀ j < s.a1.toNat, t.mem.read (s.a2.toNat + j) =
        (if s.a0.toNat < s.a2.toNat ∧ s.a2.toNat ≤ s.a0.toNat + j then t.mem.read (s.a0.toNat + j)
          else s.mem.read (s.a0.toNat + j)) ^^^ (s.source u).keystream j

/-- `40_ciphercore.md` rule R110, `41_cascaded.md` rule R139: `READ` on either unit (the instructions `readCc` and
`readCas`, which `FILL` is another name of, rule R82) XORs the keystream into the bytes the buffer held and returns the length. -/
def Obligations.ReadXorsIntoTheBuffer : Prop :=
  ∀ (u : Src) (s : State), Memory.wf s.mem → s.a0.toNat + s.a1.toNat ≤ s.cfg.memBytes →
    ∃ t, exec (Pseudo.fill.expand u) s = .next t ∧
      t.source u = (s.source u).after s.a1.toNat ∧ (∀ u', u' ≠ u → t.source u' = s.source u') ∧
      t.r0 = s.a1 ∧ t.busy = false ∧ t.err = s.err ∧ t.errcode = s.errcode ∧ SameInputs s t ∧
      (∀ a, ¬inRange a s.a0.toNat s.a1.toNat → t.mem.read a = s.mem.read a) ∧
      ∀ j < s.a1.toNat, t.mem.read (s.a0.toNat + j) =
        s.mem.read (s.a0.toNat + j) ^^^ (s.source u).keystream j

/-- `20_memory.md` rule R64, `40_ciphercore.md` rule R110: `XOR` with destination equal to source is `READ` on the same
range but for `R0`. -/
def Obligations.XorInPlaceIsRead : Prop :=
  ∀ (u : Src) (s : State), s.a2 = s.a0 →
    ∃ t t', exec (Pseudo.encrypt.expand u) s = .next t ∧ exec (Pseudo.fill.expand u) s = .next t' ∧
      t' = { t with r0 := t'.r0 }

/-- `40_ciphercore.md` rule R117: one `XOR` over a range is two consecutive ones over its two parts. -/
def Obligations.XorStreamsOverConsecutiveRanges : Prop :=
  ∀ (u : Src) (s : State) (n k : Nat), s.cfg.Valid → s.a1.toNat = n + k →
    s.a0.toNat + s.a1.toNat ≤ s.cfg.memBytes → s.a2.toNat + s.a1.toNat ≤ s.cfg.memBytes →
    ∃ t t1 t2, exec (Pseudo.encrypt.expand u) s = .next t ∧
      exec (Pseudo.encrypt.expand u) { s with a1 := BitVec.ofNat 64 n } = .next t1 ∧
      exec (Pseudo.encrypt.expand u) { t1 with
        a0 := s.a0 + BitVec.ofNat 64 n, a1 := BitVec.ofNat 64 k, a2 := s.a2 + BitVec.ofNat 64 n } = .next t2 ∧
      t2.cc = t.cc ∧ t2.cas = t.cas ∧ t2.mem = t.mem ∧ t2.r0 = t.r0 ∧ t2.err = t.err

/-- `40_ciphercore.md` rule R113, `41_cascaded.md` rule R141: key, encrypt, key again with the same key, decrypt gives
the plaintext back. Partly overlapping ranges, and a key that lies where the ciphertext is written, are left out: there
the law need not hold (`20_memory.md` rule R64). -/
def Obligations.DecryptionRestoresThePlaintext : Prop :=
  ∀ (u : Src) (s : State) (keyAddr keyLen src n dst out : Word64), Memory.wf s.mem →
    keyAddr.toNat + keyLen.toNat ≤ s.cfg.memBytes → src.toNat + n.toNat ≤ s.cfg.memBytes →
    dst.toNat + n.toNat ≤ s.cfg.memBytes → out.toNat + n.toNat ≤ s.cfg.memBytes →
    EqualOrDisjoint src.toNat dst.toNat n.toNat → EqualOrDisjoint dst.toNat out.toNat n.toNat →
    (keyAddr.toNat + keyLen.toNat ≤ dst.toNat ∨ dst.toNat + n.toNat ≤ keyAddr.toNat) →
    ∃ t1 t2 t3 t4,
      exec (Pseudo.construct.expand u) { s with a0 := keyAddr, a1 := keyLen } = .next t1 ∧
      exec (Pseudo.encrypt.expand u) { t1 with a0 := src, a1 := n, a2 := dst } = .next t2 ∧
      exec (Pseudo.construct.expand u) { t2 with a0 := keyAddr, a1 := keyLen } = .next t3 ∧
      exec (Pseudo.decrypt.expand u) { t3 with a0 := dst, a1 := n, a2 := out } = .next t4 ∧
      t4.mem.readList out.toNat n.toNat = s.mem.readList src.toNat n.toNat

/-! ### The sampler -/

/-- `42_sampler.md` rules R152, R154: the rejection sampler returns the candidate of the first iteration whose candidate
is below `max`, and has made `drawBytes max` steps an iteration. -/
def Obligations.UniformBelowReturnsFirstAccepted : Prop :=
  ∀ (src : Source) (max t : Nat), 1 ≤ max → FirstAccepted src max t →
    uniformBelow src max = some (src.candidateAt max t, src.after ((t + 1) * drawBytes max))

/-- `42_sampler.md` rule R155, `70_reset_and_hazards.md` rule R227: the sampler gives no result exactly when no
candidate is ever accepted; the bound in its definition loses no run, which is what assumption 6 deduces. -/
def Obligations.UniformBelowNeverEndsExactly : Prop :=
  ∀ (src : Source) (max : Nat), 1 ≤ max → (uniformBelow src max = none ↔ NeverAccepts src max)

/-- `42_sampler.md` rule R168: the range law. -/
def Obligations.UniformBelowIsBelowMax : Prop :=
  (∀ (src src' : Source) (max v : Nat), 0 < max → uniformBelow src max = some (v, src') → v < max) ∧
  ∀ src : Source, uniformBelow src 1 = some (0, src)

/-- `42_sampler.md` rule R153: masking the top byte of the buffer in place and masking the assembled integer give the
same value after the same draws. -/
def Obligations.MaskingVariantsAgree : Prop :=
  ∀ (max fuel : Nat) (src : Source), 2 ≤ max →
    maskedLoop max (bitlen (max - 1)) fuel src (List.replicate (drawBytes max) 0#8) =
      drawLoop max (bitlen (max - 1)) fuel src (List.replicate (drawBytes max) 0#8)

/-- `42_sampler.md` rules R154, R155: the bytes drawn per iteration are the least number that can hold `max - 1`, and
the masked candidate space is at least `max` and less than `2 * max`. -/
def Obligations.DrawSizeFitsMax : Prop :=
  ∀ max : Nat, 2 ≤ max →
    256 ^ (drawBytes max - 1) < max ∧ max ≤ 256 ^ drawBytes max ∧
    max ≤ 2 ^ bitlen (max - 1) ∧ 2 ^ bitlen (max - 1) < 2 * max

/-- `42_sampler.md` rules R157 to R167: each of the ten integer commands, on an operand that is a value of its type and
at least 1, returns the first accepted candidate in `R0`, leaves its unit advanced by the bytes drawn, and changes
nothing else. -/
def Obligations.IntegerCommandsReturnFirstAccepted : Prop :=
  ∀ (i : Instr) (sg : Signedness) (W t : Nat) (s : State), samplerEntry i = some (sg, W) →
    1 ≤ s.a0.toNat → s.a0.toNat ≤ typeMax sg W → FirstAccepted (s.source (unitOf i)) s.a0.toNat t →
    exec i s = .next { s.putSource ((s.source (unitOf i)).after ((t + 1) * drawBytes s.a0.toNat)) with
      r0 := BitVec.ofNat 64 ((s.source (unitOf i)).candidateAt s.a0.toNat t), busy := false }

/-- `70_reset_and_hazards.md` rule R227: an integer command on a valid operand leaves `BUSY` set exactly when no
candidate is ever accepted, and otherwise completes. That a command which never completes answers a next state is the
model's choice (assumption 5). -/
def Obligations.IntegerCommandsHangExactly : Prop :=
  ∀ (i : Instr) (sg : Signedness) (W : Nat) (s : State), samplerEntry i = some (sg, W) →
    1 ≤ s.a0.toNat → s.a0.toNat ≤ typeMax sg W →
    ∃ t, exec i s = .next t ∧ (t.busy = true ↔ NeverAccepts (s.source (unitOf i)) s.a0.toNat) ∧ t.err = s.err

/-- `42_sampler.md` rules R159, R163, R167: on an operand that two entry points both accept they do the same; `UGEN.U64`
is `UBELOW.U` and `UGEN.I64` is `UBELOW.S` on every operand. -/
def Obligations.IntegerCommandsAgree : Prop :=
  (∀ (i j : Instr) (sg sg' : Signedness) (W W' : Nat) (s : State),
    samplerEntry i = some (sg, W) → samplerEntry j = some (sg', W') → unitOf i = unitOf j →
    1 ≤ s.a0.toNat → s.a0.toNat ≤ typeMax sg W → s.a0.toNat ≤ typeMax sg' W' → exec i s = exec j s) ∧
  ∀ (u : Src) (s : State), exec (.ugenU64 u) s = exec (.ubelowU u) s ∧ exec (.ugenI64 u) s = exec (.ubelowS u) s

/-- `42_sampler.md` rule R169: `permutation` returns each of `0 .. n-1` exactly once, and for `n = 0` the empty list
without a draw. -/
def Obligations.PermutationIsABijection : Prop :=
  (∀ (src src' : Source) (n : Nat) (r : List Nat), permutation src n = some (r, src') → r.Perm (List.range n)) ∧
  ∀ src : Source, permutation src 0 = some ([], src)

/-- `42_sampler.md` rule R171: `shuffle` returns the elements it was given, each as often, in some order. -/
def Obligations.ShuffleKeepsTheElements : Prop :=
  ∀ (α : Type) (src src' : Source) (seq r : List α), shuffle src seq = some (r, src') → r.Perm seq

/-- `42_sampler.md` rule R170: `PERM` writes the list `permutation` gives as `n` big-endian entries of 8 bytes, advances
its unit as `permutation` does, and changes nothing else. -/
def Obligations.PermWritesThePermutation : Prop :=
  ∀ (u : Src) (s : State) (r : List Nat) (src' : Source), Memory.wf s.mem → 0 ≤ sgn64 s.a0 →
    s.a2.toNat + 8 * s.a0.toNat ≤ s.cfg.memBytes → permutation (s.source u) s.a0.toNat = some (r, src') →
    ∃ t, exec (.perm u) s = .next t ∧
      t.source u = src' ∧ (∀ u', u' ≠ u → t.source u' = s.source u') ∧
      t.r0 = s.r0 ∧ t.busy = false ∧ t.err = s.err ∧ t.errcode = s.errcode ∧ SameInputs s t ∧
      (∀ a, ¬inRange a s.a2.toNat (8 * s.a0.toNat) → t.mem.read a = s.mem.read a) ∧
      ∀ j < s.a0.toNat, t.mem.readBE (s.a2.toNat + 8 * j) 8 = r.getD j 0

/-- `42_sampler.md` rule R172: `SHUF`, on ranges that are equal or do not meet, writes the elements `shuffle` gives,
advances its unit as `shuffle` does, and changes nothing else, the source range included when the ranges do not meet. -/
def Obligations.ShufShufflesTheElements : Prop :=
  ∀ (u : Src) (s : State) (r : List (List Byte)) (src' : Source), Memory.wf s.mem →
    s.a0.toNat + s.a1.toNat * s.a3.toNat ≤ s.cfg.memBytes → s.a2.toNat + s.a1.toNat * s.a3.toNat ≤ s.cfg.memBytes →
    EqualOrDisjoint s.a0.toNat s.a2.toNat (s.a1.toNat * s.a3.toNat) →
    shuffle (s.source u) (elements s.mem s.a0.toNat s.a1.toNat s.a3.toNat) = some (r, src') →
    ∃ t, exec (.shuf u) s = .next t ∧
      t.source u = src' ∧ (∀ u', u' ≠ u → t.source u' = s.source u') ∧
      t.r0 = s.r0 ∧ t.busy = false ∧ t.err = s.err ∧ t.errcode = s.errcode ∧ SameInputs s t ∧
      (∀ a, ¬inRange a s.a2.toNat (s.a1.toNat * s.a3.toNat) → t.mem.read a = s.mem.read a) ∧
      elements t.mem s.a2.toNat s.a1.toNat s.a3.toNat = r

/-- `70_reset_and_hazards.md` rule R227 for `PERM` and `SHUF`: with valid operands they leave `BUSY` set exactly when a
draw of the permutation or shuffle never ends, which does not depend on the elements. That a command which never
completes answers a next state is the model's choice (assumption 5). -/
def Obligations.PermAndShufHangExactly : Prop :=
  ∀ (u : Src) (s : State),
    (0 ≤ sgn64 s.a0 → s.a2.toNat + 8 * s.a0.toNat ≤ s.cfg.memBytes →
      ∃ t, exec (.perm u) s = .next t ∧ t.err = s.err ∧
        (t.busy = true ↔ permutation (s.source u) s.a0.toNat = none)) ∧
    (s.a0.toNat + s.a1.toNat * s.a3.toNat ≤ s.cfg.memBytes → s.a2.toNat + s.a1.toNat * s.a3.toNat ≤ s.cfg.memBytes →
      ∃ t, exec (.shuf u) s = .next t ∧ t.err = s.err ∧
        (t.busy = true ↔ shuffle (s.source u) (List.range s.a1.toNat) = none))

/-! ### What no command does -/

/-- `10_state.md` rule R24: no command changes a lane of the unit it does not work on. -/
def Obligations.OtherUnitIsUntouched : Prop :=
  ∀ (i : Instr) (s t : State), exec i s = .next t →
    (unitOf i = .cas → t.cc = s.cc) ∧ (unitOf i = .cc → t.cas = s.cas)

/-- `10_state.md` rule R24: what a command does, does not depend on the unit it does not work on. -/
def Obligations.OtherUnitIsIrrelevant : Prop :=
  ∀ (i : Instr) (s : State),
    (unitOf i = .cas → ∀ l, ∃ t, exec i s = .next t ∧ exec i { s with cc := l } = .next { t with cc := l }) ∧
    (unitOf i = .cc → ∀ c, ∃ t, exec i s = .next t ∧ exec i { s with cas := c } = .next { t with cas := c })

/-- `10_state.md` rule R26: no command writes an operand register, nor the parameter, nor what the host has issued or
been told. -/
def Obligations.CommandsNeverWriteOperands : Prop :=
  ∀ (i : Instr) (s t : State), exec i s = .next t → SameInputs s t

/-- `10_state.md` rule R27: `R0` changes only by a command that has a result and does not fault. -/
def Obligations.OnlyResultsChangeR0 : Prop :=
  ∀ (i : Instr) (s t : State), s.err = false → exec i s = .next t → (hasResult i = false ∨ t.err = true) →
    t.r0 = s.r0

/-- `43_transfer_memory_system.md` rule R182: a command changes no byte of `M` outside the range it stores to, whether
it completes, faults or never ends. -/
def Obligations.CommandsStoreOnlyInTheirRange : Prop :=
  ∀ (i : Instr) (s t : State) (a : Nat), Memory.wf s.mem → exec i s = .next t → ¬storesTo i s a →
    t.mem.read a = s.mem.read a

/-- `40_ciphercore.md` rule R111, `42_sampler.md` rule R174: what a command leaves in its unit, in `R0` and in the bytes
it stores, and whether it ends, is a function of its unit, the operand registers and the bytes of `M` it reads. That a command
that never ends leaves its unit as it was is the model's choice (assumption 5). -/
def Obligations.EffectsDependOnlyOnWhatIsRead : Prop :=
  ∀ (i : Instr) (s s' : State), Memory.wf s.mem → Memory.wf s'.mem → s'.cfg = s.cfg →
    (∀ k, s'.operand k = s.operand k) → s'.source (unitOf i) = s.source (unitOf i) →
    (∀ a, readsFrom i s a → s'.mem.read a = s.mem.read a) →
    ∃ t t', exec i s = .next t ∧ exec i s' = .next t' ∧ t'.busy = t.busy ∧
      t'.source (unitOf i) = t.source (unitOf i) ∧
      (s.err = false → s'.err = false → t'.err = t.err ∧ (t.err = true → t'.errcode = t.errcode)) ∧
      (t.busy = false → ¬invalidArgument i s → ¬rangeOutside i s →
        (hasResult i = true → t'.r0 = t.r0) ∧ ∀ a, storesTo i s a → t'.mem.read a = t.mem.read a)

/-! ### Invariants -/

/-- The invariant holds at reset. -/
def Obligations.ResetIsSound : Prop := State.reset.Inv

/-- `00_scope.md` rule R6, `10_state.md` rule R29, `20_memory.md` rules R50, R55: every step keeps the invariant: the
parameter legal, `M` canonical and inside its size, `ERRCODE` legal and 0 exactly when `ERR` is, no command running in a
halted block. -/
def Obligations.StepKeepsTheInvariant : Prop := ∀ s t : State, s.Inv → step s = .next t → t.Inv

/-- `10_state.md` rule R29: after a step that is not a sampler command, the host sees `BUSY = 0`. -/
def Obligations.OnlySamplersCanStayBusy : Prop :=
  ∀ (s t : State) (a : HostAction) (rest : List HostAction),
    s.busy = false → s.pending = a :: rest →
    (∀ w i, a = .writeCmd w → decode w = .ok i → usesSampler i = false) → step s = .next t → t.busy = false

/-- `70_reset_and_hazards.md` rule R227: a command that never completes keeps `BUSY` set for ever without a hard reset,
and of the host's accesses only reads of `STATUS` are taken. -/
def Obligations.RunningForEverHoldsForEver : Prop :=
  ∀ (n : Nat) (s : State), s.busy = true → (∀ c, .hardReset c ∉ s.pending) →
    ∃ t, Host.Core.run Sys2Proof.core n s = .next t ∧
      t = { s with pending := t.pending, replies := t.replies } ∧
      t.pending.filter (fun a => decide (a ≠ .readReg .status)) =
        s.pending.filter (fun a => decide (a ≠ .readReg .status))

/-! ### `SHUF` on ranges that overlap -/

/-- `20_memory.md` rule R64, `42_sampler.md` rule R172: `SHUF` for every placement of its two ranges, the partly overlapping
ones too: the elements it leaves are those `shuffle` gives of the sequence as the ascending copy left it at the
destination, where a source byte that the copy had already written was read as written (`copiedByte`); it advances its
unit as `shuffle` does and changes nothing else. -/
def Obligations.ShufShufflesTheCopyForEveryPlacement : Prop :=
  ∀ (u : Src) (s : State) (r : List (List Byte)) (src' : Source), Memory.wf s.mem →
    s.a0.toNat + s.a1.toNat * s.a3.toNat ≤ s.cfg.memBytes → s.a2.toNat + s.a1.toNat * s.a3.toNat ≤ s.cfg.memBytes →
    shuffle (s.source u) ((List.range s.a1.toNat).map fun i => (List.range s.a3.toNat).map fun b =>
      copiedByte s.mem s.a0.toNat s.a2.toNat (i * s.a3.toNat + b)) = some (r, src') →
    ∃ t, exec (.shuf u) s = .next t ∧
      t.source u = src' ∧ (∀ u', u' ≠ u → t.source u' = s.source u') ∧
      t.r0 = s.r0 ∧ t.busy = false ∧ t.err = s.err ∧ t.errcode = s.errcode ∧ SameInputs s t ∧
      (∀ a, ¬inRange a s.a2.toNat (s.a1.toNat * s.a3.toNat) → t.mem.read a = s.mem.read a) ∧
      ∀ i < s.a1.toNat, ∀ b < s.a3.toNat,
        t.mem.read (s.a2.toNat + (i * s.a3.toNat + b)) = (r.getD i []).getD b 0#8
end

