-- ==== Sys2Proof/Laws/State.lean ====
section
/-! SUPPORT. What each named update of the state does to each field, so that no later proof unfolds a record
update. -/

namespace Sys2Proof.Machine

/-! ### `complete` -/

@[simp] theorem State.complete_cc (s : State) : (s.complete).cc = s.cc := rfl
@[simp] theorem State.complete_cas (s : State) : (s.complete).cas = s.cas := rfl
@[simp] theorem State.complete_a0 (s : State) : (s.complete).a0 = s.a0 := rfl
@[simp] theorem State.complete_a1 (s : State) : (s.complete).a1 = s.a1 := rfl
@[simp] theorem State.complete_a2 (s : State) : (s.complete).a2 = s.a2 := rfl
@[simp] theorem State.complete_a3 (s : State) : (s.complete).a3 = s.a3 := rfl
@[simp] theorem State.complete_r0 (s : State) : (s.complete).r0 = s.r0 := rfl
@[simp] theorem State.complete_busy (s : State) : (s.complete).busy = false := rfl
@[simp] theorem State.complete_err (s : State) : (s.complete).err = s.err := rfl
@[simp] theorem State.complete_errcode (s : State) : (s.complete).errcode = s.errcode := rfl
@[simp] theorem State.complete_mem (s : State) : (s.complete).mem = s.mem := rfl
@[simp] theorem State.complete_cfg (s : State) : (s.complete).cfg = s.cfg := rfl
@[simp] theorem State.complete_pending (s : State) : (s.complete).pending = s.pending := rfl
@[simp] theorem State.complete_replies (s : State) : (s.complete).replies = s.replies := rfl

/-! ### `raise` -/

@[simp] theorem State.raise_cc (s : State) (t : Trap) : (s.raise t).cc = s.cc := rfl
@[simp] theorem State.raise_cas (s : State) (t : Trap) : (s.raise t).cas = s.cas := rfl
@[simp] theorem State.raise_a0 (s : State) (t : Trap) : (s.raise t).a0 = s.a0 := rfl
@[simp] theorem State.raise_a1 (s : State) (t : Trap) : (s.raise t).a1 = s.a1 := rfl
@[simp] theorem State.raise_a2 (s : State) (t : Trap) : (s.raise t).a2 = s.a2 := rfl
@[simp] theorem State.raise_a3 (s : State) (t : Trap) : (s.raise t).a3 = s.a3 := rfl
@[simp] theorem State.raise_r0 (s : State) (t : Trap) : (s.raise t).r0 = s.r0 := rfl
@[simp] theorem State.raise_busy (s : State) (t : Trap) : (s.raise t).busy = false := rfl
@[simp] theorem State.raise_err (s : State) (t : Trap) : (s.raise t).err = true := rfl
@[simp] theorem State.raise_errcode (s : State) (t : Trap) : (s.raise t).errcode = t.code := rfl
@[simp] theorem State.raise_mem (s : State) (t : Trap) : (s.raise t).mem = s.mem := rfl
@[simp] theorem State.raise_cfg (s : State) (t : Trap) : (s.raise t).cfg = s.cfg := rfl
@[simp] theorem State.raise_pending (s : State) (t : Trap) : (s.raise t).pending = s.pending := rfl
@[simp] theorem State.raise_replies (s : State) (t : Trap) : (s.raise t).replies = s.replies := rfl

/-! ### `hang` -/

@[simp] theorem State.hang_cc (s : State) : (s.hang).cc = s.cc := rfl
@[simp] theorem State.hang_cas (s : State) : (s.hang).cas = s.cas := rfl
@[simp] theorem State.hang_a0 (s : State) : (s.hang).a0 = s.a0 := rfl
@[simp] theorem State.hang_a1 (s : State) : (s.hang).a1 = s.a1 := rfl
@[simp] theorem State.hang_a2 (s : State) : (s.hang).a2 = s.a2 := rfl
@[simp] theorem State.hang_a3 (s : State) : (s.hang).a3 = s.a3 := rfl
@[simp] theorem State.hang_r0 (s : State) : (s.hang).r0 = s.r0 := rfl
@[simp] theorem State.hang_busy (s : State) : (s.hang).busy = true := rfl
@[simp] theorem State.hang_err (s : State) : (s.hang).err = s.err := rfl
@[simp] theorem State.hang_errcode (s : State) : (s.hang).errcode = s.errcode := rfl
@[simp] theorem State.hang_mem (s : State) : (s.hang).mem = s.mem := rfl
@[simp] theorem State.hang_cfg (s : State) : (s.hang).cfg = s.cfg := rfl
@[simp] theorem State.hang_pending (s : State) : (s.hang).pending = s.pending := rfl
@[simp] theorem State.hang_replies (s : State) : (s.hang).replies = s.replies := rfl

/-! ### `setR0` -/

@[simp] theorem State.setR0_cc (s : State) (v : Word64) : (s.setR0 v).cc = s.cc := rfl
@[simp] theorem State.setR0_cas (s : State) (v : Word64) : (s.setR0 v).cas = s.cas := rfl
@[simp] theorem State.setR0_a0 (s : State) (v : Word64) : (s.setR0 v).a0 = s.a0 := rfl
@[simp] theorem State.setR0_a1 (s : State) (v : Word64) : (s.setR0 v).a1 = s.a1 := rfl
@[simp] theorem State.setR0_a2 (s : State) (v : Word64) : (s.setR0 v).a2 = s.a2 := rfl
@[simp] theorem State.setR0_a3 (s : State) (v : Word64) : (s.setR0 v).a3 = s.a3 := rfl
@[simp] theorem State.setR0_r0 (s : State) (v : Word64) : (s.setR0 v).r0 = v := rfl
@[simp] theorem State.setR0_busy (s : State) (v : Word64) : (s.setR0 v).busy = s.busy := rfl
@[simp] theorem State.setR0_err (s : State) (v : Word64) : (s.setR0 v).err = s.err := rfl
@[simp] theorem State.setR0_errcode (s : State) (v : Word64) : (s.setR0 v).errcode = s.errcode := rfl
@[simp] theorem State.setR0_mem (s : State) (v : Word64) : (s.setR0 v).mem = s.mem := rfl
@[simp] theorem State.setR0_cfg (s : State) (v : Word64) : (s.setR0 v).cfg = s.cfg := rfl
@[simp] theorem State.setR0_pending (s : State) (v : Word64) : (s.setR0 v).pending = s.pending := rfl
@[simp] theorem State.setR0_replies (s : State) (v : Word64) : (s.setR0 v).replies = s.replies := rfl

/-! ### `setMem` -/

@[simp] theorem State.setMem_cc (s : State) (m : Memory) : (s.setMem m).cc = s.cc := rfl
@[simp] theorem State.setMem_cas (s : State) (m : Memory) : (s.setMem m).cas = s.cas := rfl
@[simp] theorem State.setMem_a0 (s : State) (m : Memory) : (s.setMem m).a0 = s.a0 := rfl
@[simp] theorem State.setMem_a1 (s : State) (m : Memory) : (s.setMem m).a1 = s.a1 := rfl
@[simp] theorem State.setMem_a2 (s : State) (m : Memory) : (s.setMem m).a2 = s.a2 := rfl
@[simp] theorem State.setMem_a3 (s : State) (m : Memory) : (s.setMem m).a3 = s.a3 := rfl
@[simp] theorem State.setMem_r0 (s : State) (m : Memory) : (s.setMem m).r0 = s.r0 := rfl
@[simp] theorem State.setMem_busy (s : State) (m : Memory) : (s.setMem m).busy = s.busy := rfl
@[simp] theorem State.setMem_err (s : State) (m : Memory) : (s.setMem m).err = s.err := rfl
@[simp] theorem State.setMem_errcode (s : State) (m : Memory) : (s.setMem m).errcode = s.errcode := rfl
@[simp] theorem State.setMem_mem (s : State) (m : Memory) : (s.setMem m).mem = m := rfl
@[simp] theorem State.setMem_cfg (s : State) (m : Memory) : (s.setMem m).cfg = s.cfg := rfl
@[simp] theorem State.setMem_pending (s : State) (m : Memory) : (s.setMem m).pending = s.pending := rfl
@[simp] theorem State.setMem_replies (s : State) (m : Memory) : (s.setMem m).replies = s.replies := rfl

/-! ### `reply` -/

@[simp] theorem State.reply_cc (s : State) (r : Reply) : (s.reply r).cc = s.cc := rfl
@[simp] theorem State.reply_cas (s : State) (r : Reply) : (s.reply r).cas = s.cas := rfl
@[simp] theorem State.reply_a0 (s : State) (r : Reply) : (s.reply r).a0 = s.a0 := rfl
@[simp] theorem State.reply_a1 (s : State) (r : Reply) : (s.reply r).a1 = s.a1 := rfl
@[simp] theorem State.reply_a2 (s : State) (r : Reply) : (s.reply r).a2 = s.a2 := rfl
@[simp] theorem State.reply_a3 (s : State) (r : Reply) : (s.reply r).a3 = s.a3 := rfl
@[simp] theorem State.reply_r0 (s : State) (r : Reply) : (s.reply r).r0 = s.r0 := rfl
@[simp] theorem State.reply_busy (s : State) (r : Reply) : (s.reply r).busy = s.busy := rfl
@[simp] theorem State.reply_err (s : State) (r : Reply) : (s.reply r).err = s.err := rfl
@[simp] theorem State.reply_errcode (s : State) (r : Reply) : (s.reply r).errcode = s.errcode := rfl
@[simp] theorem State.reply_mem (s : State) (r : Reply) : (s.reply r).mem = s.mem := rfl
@[simp] theorem State.reply_cfg (s : State) (r : Reply) : (s.reply r).cfg = s.cfg := rfl
@[simp] theorem State.reply_pending (s : State) (r : Reply) : (s.reply r).pending = s.pending := rfl
@[simp] theorem State.reply_replies (s : State) (r : Reply) : (s.reply r).replies = r :: s.replies := rfl

/-! ### `putSource`, a unit at a time -/

@[simp] theorem State.putSource_cc_cc (s : State) (l : Lane) : (s.putSource (.cc l)).cc = l := rfl
@[simp] theorem State.putSource_cc_cas (s : State) (l : Lane) : (s.putSource (.cc l)).cas = s.cas := rfl
@[simp] theorem State.putSource_cas_cc (s : State) (c : Cascade) : (s.putSource (.cas c)).cc = s.cc := rfl
@[simp] theorem State.putSource_cas_cas (s : State) (c : Cascade) : (s.putSource (.cas c)).cas = c := rfl
@[simp] theorem State.putSource_a0 (s : State) (src : Source) : (s.putSource src).a0 = s.a0 := by cases src <;> rfl
@[simp] theorem State.putSource_a1 (s : State) (src : Source) : (s.putSource src).a1 = s.a1 := by cases src <;> rfl
@[simp] theorem State.putSource_a2 (s : State) (src : Source) : (s.putSource src).a2 = s.a2 := by cases src <;> rfl
@[simp] theorem State.putSource_a3 (s : State) (src : Source) : (s.putSource src).a3 = s.a3 := by cases src <;> rfl
@[simp] theorem State.putSource_r0 (s : State) (src : Source) : (s.putSource src).r0 = s.r0 := by cases src <;> rfl
@[simp] theorem State.putSource_busy (s : State) (src : Source) : (s.putSource src).busy = s.busy := by cases src <;> rfl
@[simp] theorem State.putSource_err (s : State) (src : Source) : (s.putSource src).err = s.err := by cases src <;> rfl
@[simp] theorem State.putSource_errcode (s : State) (src : Source) : (s.putSource src).errcode = s.errcode := by cases src <;> rfl
@[simp] theorem State.putSource_mem (s : State) (src : Source) : (s.putSource src).mem = s.mem := by cases src <;> rfl
@[simp] theorem State.putSource_cfg (s : State) (src : Source) : (s.putSource src).cfg = s.cfg := by cases src <;> rfl
@[simp] theorem State.putSource_pending (s : State) (src : Source) : (s.putSource src).pending = s.pending := by cases src <;> rfl
@[simp] theorem State.putSource_replies (s : State) (src : Source) : (s.putSource src).replies = s.replies := by cases src <;> rfl

/-! ### `setOperand` and `operand` -/

@[simp] theorem State.setOperand_cc (s : State) (k : OpReg) (v : Word64) : (s.setOperand k v).cc = s.cc := by cases k <;> rfl
@[simp] theorem State.setOperand_cas (s : State) (k : OpReg) (v : Word64) : (s.setOperand k v).cas = s.cas := by cases k <;> rfl
@[simp] theorem State.setOperand_a0_a0 (s : State) (v : Word64) : (s.setOperand .a0 v).a0 = v := rfl
@[simp] theorem State.setOperand_a1_a0 (s : State) (v : Word64) : (s.setOperand .a1 v).a0 = s.a0 := rfl
@[simp] theorem State.setOperand_a2_a0 (s : State) (v : Word64) : (s.setOperand .a2 v).a0 = s.a0 := rfl
@[simp] theorem State.setOperand_a3_a0 (s : State) (v : Word64) : (s.setOperand .a3 v).a0 = s.a0 := rfl
@[simp] theorem State.setOperand_a0_a1 (s : State) (v : Word64) : (s.setOperand .a0 v).a1 = s.a1 := rfl
@[simp] theorem State.setOperand_a1_a1 (s : State) (v : Word64) : (s.setOperand .a1 v).a1 = v := rfl
@[simp] theorem State.setOperand_a2_a1 (s : State) (v : Word64) : (s.setOperand .a2 v).a1 = s.a1 := rfl
@[simp] theorem State.setOperand_a3_a1 (s : State) (v : Word64) : (s.setOperand .a3 v).a1 = s.a1 := rfl
@[simp] theorem State.setOperand_a0_a2 (s : State) (v : Word64) : (s.setOperand .a0 v).a2 = s.a2 := rfl
@[simp] theorem State.setOperand_a1_a2 (s : State) (v : Word64) : (s.setOperand .a1 v).a2 = s.a2 := rfl
@[simp] theorem State.setOperand_a2_a2 (s : State) (v : Word64) : (s.setOperand .a2 v).a2 = v := rfl
@[simp] theorem State.setOperand_a3_a2 (s : State) (v : Word64) : (s.setOperand .a3 v).a2 = s.a2 := rfl
@[simp] theorem State.setOperand_a0_a3 (s : State) (v : Word64) : (s.setOperand .a0 v).a3 = s.a3 := rfl
@[simp] theorem State.setOperand_a1_a3 (s : State) (v : Word64) : (s.setOperand .a1 v).a3 = s.a3 := rfl
@[simp] theorem State.setOperand_a2_a3 (s : State) (v : Word64) : (s.setOperand .a2 v).a3 = s.a3 := rfl
@[simp] theorem State.setOperand_a3_a3 (s : State) (v : Word64) : (s.setOperand .a3 v).a3 = v := rfl
@[simp] theorem State.setOperand_r0 (s : State) (k : OpReg) (v : Word64) : (s.setOperand k v).r0 = s.r0 := by cases k <;> rfl
@[simp] theorem State.setOperand_busy (s : State) (k : OpReg) (v : Word64) : (s.setOperand k v).busy = s.busy := by cases k <;> rfl
@[simp] theorem State.setOperand_err (s : State) (k : OpReg) (v : Word64) : (s.setOperand k v).err = s.err := by cases k <;> rfl
@[simp] theorem State.setOperand_errcode (s : State) (k : OpReg) (v : Word64) : (s.setOperand k v).errcode = s.errcode := by cases k <;> rfl
@[simp] theorem State.setOperand_mem (s : State) (k : OpReg) (v : Word64) : (s.setOperand k v).mem = s.mem := by cases k <;> rfl
@[simp] theorem State.setOperand_cfg (s : State) (k : OpReg) (v : Word64) : (s.setOperand k v).cfg = s.cfg := by cases k <;> rfl
@[simp] theorem State.setOperand_pending (s : State) (k : OpReg) (v : Word64) : (s.setOperand k v).pending = s.pending := by cases k <;> rfl
@[simp] theorem State.setOperand_replies (s : State) (k : OpReg) (v : Word64) : (s.setOperand k v).replies = s.replies := by cases k <;> rfl

/-- An operand register reads as what was written to it, the others as before. -/
theorem State.operand_setOperand (s : State) (k k' : OpReg) (v : Word64) :
    (s.setOperand k v).operand k' = if k' = k then v else s.operand k' := by
  cases k <;> cases k' <;> rfl

/-! ### `afterReset` and `hardReset` -/

@[simp] theorem State.afterReset_cc (c : Config) (m : Memory) : (State.afterReset c m).cc = Lane.zero := rfl
@[simp] theorem State.afterReset_cas (c : Config) (m : Memory) : (State.afterReset c m).cas = Cascade.zero := rfl
@[simp] theorem State.afterReset_a0 (c : Config) (m : Memory) : (State.afterReset c m).a0 = 0#64 := rfl
@[simp] theorem State.afterReset_a1 (c : Config) (m : Memory) : (State.afterReset c m).a1 = 0#64 := rfl
@[simp] theorem State.afterReset_a2 (c : Config) (m : Memory) : (State.afterReset c m).a2 = 0#64 := rfl
@[simp] theorem State.afterReset_a3 (c : Config) (m : Memory) : (State.afterReset c m).a3 = 0#64 := rfl
@[simp] theorem State.afterReset_r0 (c : Config) (m : Memory) : (State.afterReset c m).r0 = 0#64 := rfl
@[simp] theorem State.afterReset_busy (c : Config) (m : Memory) : (State.afterReset c m).busy = false := rfl
@[simp] theorem State.afterReset_err (c : Config) (m : Memory) : (State.afterReset c m).err = false := rfl
@[simp] theorem State.afterReset_errcode (c : Config) (m : Memory) : (State.afterReset c m).errcode = 0#4 := rfl
@[simp] theorem State.afterReset_mem (c : Config) (m : Memory) : (State.afterReset c m).mem = m := rfl
@[simp] theorem State.afterReset_cfg (c : Config) (m : Memory) : (State.afterReset c m).cfg = c := rfl
@[simp] theorem State.afterReset_pending (c : Config) (m : Memory) : (State.afterReset c m).pending = [] := rfl
@[simp] theorem State.afterReset_replies (c : Config) (m : Memory) : (State.afterReset c m).replies = [] := rfl
@[simp] theorem hardReset_cc (cs : List Host.Cell) (s : State) : (hardReset cs s).cc = Lane.zero := rfl
@[simp] theorem hardReset_cas (cs : List Host.Cell) (s : State) : (hardReset cs s).cas = Cascade.zero := rfl
@[simp] theorem hardReset_a0 (cs : List Host.Cell) (s : State) : (hardReset cs s).a0 = 0#64 := rfl
@[simp] theorem hardReset_a1 (cs : List Host.Cell) (s : State) : (hardReset cs s).a1 = 0#64 := rfl
@[simp] theorem hardReset_a2 (cs : List Host.Cell) (s : State) : (hardReset cs s).a2 = 0#64 := rfl
@[simp] theorem hardReset_a3 (cs : List Host.Cell) (s : State) : (hardReset cs s).a3 = 0#64 := rfl
@[simp] theorem hardReset_r0 (cs : List Host.Cell) (s : State) : (hardReset cs s).r0 = 0#64 := rfl
@[simp] theorem hardReset_busy (cs : List Host.Cell) (s : State) : (hardReset cs s).busy = false := rfl
@[simp] theorem hardReset_err (cs : List Host.Cell) (s : State) : (hardReset cs s).err = false := rfl
@[simp] theorem hardReset_errcode (cs : List Host.Cell) (s : State) : (hardReset cs s).errcode = 0#4 := rfl
@[simp] theorem hardReset_mem (cs : List Host.Cell) (s : State) : (hardReset cs s).mem = Memory.ofCells s.cfg.memBytes cs := rfl
@[simp] theorem hardReset_cfg (cs : List Host.Cell) (s : State) : (hardReset cs s).cfg = s.cfg := rfl
@[simp] theorem hardReset_pending (cs : List Host.Cell) (s : State) : (hardReset cs s).pending = s.pending := rfl
@[simp] theorem hardReset_replies (cs : List Host.Cell) (s : State) : (hardReset cs s).replies = s.replies := rfl

/-! ### The unit a source belongs to -/

@[simp] theorem Source.unit_cc (l : Lane) : (Source.cc l).unit = .cc := rfl
@[simp] theorem Source.unit_cas (c : Cascade) : (Source.cas c).unit = .cas := rfl
@[simp] theorem State.source_cc (s : State) : s.source .cc = .cc s.cc := rfl
@[simp] theorem State.source_cas (s : State) : s.source .cas = .cas s.cas := rfl
@[simp] theorem State.source_unit (s : State) (u : Src) : (s.source u).unit = u := by cases u <;> rfl

/-- What was put back into a unit is what stands there. -/
theorem State.source_putSource (s : State) (src : Source) : (s.putSource src).source src.unit = src := by
  cases src <;> rfl

/-- Putting back what stands in a unit changes nothing. -/
@[simp] theorem State.putSource_source (s : State) (u : Src) : s.putSource (s.source u) = s := by
  cases u <;> rfl

/-- A unit does not change when contents are put into the other one. -/
theorem State.source_putSource_of_ne (s : State) (src : Source) (u : Src) (h : u ≠ src.unit) :
    (s.putSource src).source u = s.source u := by
  cases src <;> cases u <;> first | rfl | exact absurd rfl h

@[simp] theorem Source.unit_step (src : Source) (x : Byte) : (src.step x).2.unit = src.unit := by
  cases src <;> rfl

end Sys2Proof.Machine
end

