-- ==== Sys2Proof/Laws/Memory.lean ====
section
/-! SUPPORT. The work memory: every operation keeps the canonical form and the address bound, a byte reads as what was
last written to it, and memories of equal bytes are equal lists. -/

namespace Sys2Proof.Machine

/-- Every listed address is below a bound. -/
abbrev Memory.below (n : Nat) (m : Memory) : Prop := ∀ c ∈ m, c.1 < n

@[simp] theorem Memory.read_nil (a : Nat) : Memory.read [] a = Memory.unlisted := rfl

theorem Memory.wf_nil : Memory.wf [] := ⟨List.Pairwise.nil, fun _ h => absurd h List.not_mem_nil⟩

theorem Memory.wf_tail {c : Host.Cell} {m : Memory} (h : Memory.wf (c :: m)) : Memory.wf m :=
  ⟨(List.pairwise_cons.1 h.1).2, fun d hd => h.2 d (List.mem_cons_of_mem _ hd)⟩

theorem Memory.wf_head_lt {c : Host.Cell} {m : Memory} (h : Memory.wf (c :: m)) : ∀ d ∈ m, c.1 < d.1 :=
  (List.pairwise_cons.1 h.1).1

theorem Memory.wf_cons {c : Host.Cell} {m : Memory} (hm : Memory.wf m) (hc : ∀ d ∈ m, c.1 < d.1)
    (h0 : c.2 ≠ Memory.unlisted) : Memory.wf (c :: m) := by
  refine ⟨List.pairwise_cons.2 ⟨hc, hm.1⟩, fun d hd => ?_⟩
  rcases List.mem_cons.1 hd with rfl | hd
  · exact h0
  · exact hm.2 d hd

/-- An address that no entry lists reads as an unlisted one. -/
theorem Memory.read_of_not_listed (m : Memory) (a : Nat) (h : ∀ c ∈ m, c.1 ≠ a) : m.read a = Memory.unlisted := by
  induction m with
  | nil => rfl
  | cons c m ih =>
    simp [Memory.read, h c (List.mem_cons_self ..), ih fun d hd => h d (List.mem_cons_of_mem _ hd)]

/-- The entries of a memory after a write are entries before it or the one written. -/
theorem Memory.mem_write {m : Memory} {a : Nat} {b : Byte} {d : Host.Cell} (h : d ∈ m.write a b) :
    d ∈ m ∨ d = (a, b) := by
  induction m with
  | nil =>
    simp only [Memory.write] at h
    split at h <;> simp_all
  | cons c m ih =>
    simp only [Memory.write] at h
    split at h
    · split at h
      · exact .inl h
      · rcases List.mem_cons.1 h with rfl | h
        · exact .inr rfl
        · exact .inl h
    · split at h
      · split at h
        · exact .inl (List.mem_cons_of_mem _ h)
        · rcases List.mem_cons.1 h with rfl | h
          · exact .inr rfl
          · exact .inl (List.mem_cons_of_mem _ h)
      · rcases List.mem_cons.1 h with rfl | h
        · exact .inl (List.mem_cons_self ..)
        · exact (ih h).imp (List.mem_cons_of_mem _) id

/-- A write keeps the canonical form. -/
theorem Memory.wf_write {m : Memory} (h : Memory.wf m) (a : Nat) (b : Byte) : Memory.wf (m.write a b) := by
  induction m with
  | nil =>
    simp only [Memory.write]
    split
    · exact Memory.wf_nil
    · exact Memory.wf_cons Memory.wf_nil (by simp) ‹_›
  | cons c m ih =>
    have hlt := Memory.wf_head_lt h
    simp only [Memory.write]
    split
    · split
      · exact h
      · refine Memory.wf_cons h (fun d hd => ?_) ‹_›
        rcases List.mem_cons.1 hd with rfl | hd
        · assumption
        · exact Nat.lt_trans ‹_› (hlt d hd)
    · split
      · split
        · exact Memory.wf_tail h
        · exact Memory.wf_cons (Memory.wf_tail h) (fun d hd => by subst a; exact hlt d hd) ‹_›
      · refine Memory.wf_cons (ih (Memory.wf_tail h)) (fun d hd => ?_) (h.2 c (List.mem_cons_self ..))
        rcases Memory.mem_write hd with hd | rfl
        · exact hlt d hd
        · show c.1 < a
          omega

/-- A write below a bound keeps every listed address below it. -/
theorem Memory.below_write {n : Nat} {m : Memory} (h : Memory.below n m) {a : Nat} (ha : a < n) (b : Byte) :
    Memory.below n (m.write a b) := fun d hd => by
  rcases Memory.mem_write hd with hd | rfl
  · exact h d hd
  · exact ha

/-- Read after write: the byte written at its address, every other byte as before. -/
theorem Memory.read_write {m : Memory} (h : Memory.wf m) (a : Nat) (b : Byte) (x : Nat) :
    (m.write a b).read x = if x = a then b else m.read x := by
  induction m with
  | nil =>
    simp only [Memory.write]
    split <;> simp [Memory.read, *, eq_comm]
  | cons c m ih =>
    have hlt := Memory.wf_head_lt h
    simp only [Memory.write]
    split
    · rename_i hac
      have hna : Memory.read (c :: m) a = Memory.unlisted := by
        refine Memory.read_of_not_listed _ _ fun d hd => ?_
        rcases List.mem_cons.1 hd with rfl | hd
        · omega
        · have := hlt d hd
          omega
      split
      · split
        · subst x
          rw [hna]
          exact Eq.symm ‹_›
        · rfl
      · by_cases hx : x = a
        · simp [Memory.read, hx]
        · simp [Memory.read, hx, Ne.symm hx]
    · split
      · rename_i hac
        subst hac
        have hnb : Memory.read m c.1 = Memory.unlisted :=
          Memory.read_of_not_listed _ _ fun d hd => Nat.ne_of_gt (hlt d hd)
        split
        · by_cases hx : x = c.1
          · rw [if_pos hx, hx, hnb]
            exact Eq.symm ‹_›
          · simp [Memory.read, hx, Ne.symm hx]
        · by_cases hx : x = c.1
          · simp [Memory.read, hx]
          · simp [Memory.read, hx, Ne.symm hx]
      · have hr := ih (Memory.wf_tail h)
        by_cases hx : c.1 = x
        · have : x ≠ a := by omega
          simp [Memory.read, hx, this]
        · simp [Memory.read, hx, hr]

@[simp] theorem Memory.read_write_self {m : Memory} (h : Memory.wf m) (a : Nat) (b : Byte) :
    (m.write a b).read a = b := by simp [Memory.read_write h]

theorem Memory.read_write_of_ne {m : Memory} (h : Memory.wf m) {a x : Nat} (b : Byte) (hx : x ≠ a) :
    (m.write a b).read x = m.read x := by simp [Memory.read_write h, hx]

/-- Memories in the canonical form that read the same everywhere are the same list. -/
theorem Memory.eq_of_read_eq {m m' : Memory} (h : Memory.wf m) (h' : Memory.wf m')
    (he : ∀ a, m.read a = m'.read a) : m = m' := by
  induction m generalizing m' with
  | nil =>
    cases m' with
    | nil => rfl
    | cons c m' =>
      exact absurd (by simpa [Memory.read] using (he c.1).symm) (h'.2 c (List.mem_cons_self ..))
  | cons c m ih =>
    cases m' with
    | nil => exact absurd (by simpa [Memory.read] using he c.1) (h.2 c (List.mem_cons_self ..))
    | cons d m' =>
      have hc := h.2 c (List.mem_cons_self ..)
      have hd := h'.2 d (List.mem_cons_self ..)
      have hlt := Memory.wf_head_lt h
      have hlt' := Memory.wf_head_lt h'
      have hcd : c.1 = d.1 := by
        rcases Nat.lt_trichotomy c.1 d.1 with hl | hl | hl
        · refine absurd ?_ hc
          have := he c.1
          rw [Memory.read_of_not_listed (d :: m')] at this
          · simpa [Memory.read] using this
          · intro e hm
            rcases List.mem_cons.1 hm with rfl | hm
            · omega
            · have := hlt' e hm
              omega
        · exact hl
        · refine absurd ?_ hd
          have := he d.1
          rw [Memory.read_of_not_listed (c :: m)] at this
          · simpa [Memory.read] using this.symm
          · intro e hm
            rcases List.mem_cons.1 hm with rfl | hm
            · omega
            · have := hlt e hm
              omega
      have hb : c.2 = d.2 := by simpa [Memory.read, hcd] using he c.1
      have htail : m = m' := by
        refine ih (Memory.wf_tail h) (Memory.wf_tail h') fun a => ?_
        by_cases ha : c.1 = a
        · rw [Memory.read_of_not_listed m a fun e hm => by have := hlt e hm; omega,
            Memory.read_of_not_listed m' a fun e hm => by have := hlt' e hm; omega]
        · simpa [Memory.read, ha, hcd ▸ ha] using he a
      rw [htail, Prod.ext hcd hb]

/-! ### Lists of bytes and big-endian integers -/

@[simp] theorem Memory.length_readList (m : Memory) (a n : Nat) : (m.readList a n).length = n := by
  induction n generalizing a with
  | zero => rfl
  | succ n ih => simp [Memory.readList, ih]

/-- Byte `i` of a range is the byte at its address. -/
theorem Memory.getElem_readList (m : Memory) (a n i : Nat) (h : i < (m.readList a n).length) :
    (m.readList a n)[i] = m.read (a + i) := by
  induction n generalizing a i with
  | zero => simp at h
  | succ n ih =>
    cases i with
    | zero => rfl
    | succ i => simp [Memory.readList, ih, Nat.add_assoc, Nat.add_comm 1 i]

/-- Ranges of equal bytes read as equal lists. -/
theorem Memory.readList_congr {m m' : Memory} {a a' n : Nat}
    (h : ∀ i < n, m.read (a + i) = m'.read (a' + i)) : m.readList a n = m'.readList a' n := by
  refine List.ext_getElem (by simp) fun i hi hi' => ?_
  rw [Memory.getElem_readList, Memory.getElem_readList]
  exact h i (by simpa using hi)

theorem Memory.wf_writeList {m : Memory} (h : Memory.wf m) (a : Nat) (bs : List Byte) :
    Memory.wf (m.writeList a bs) := by
  induction bs generalizing m a with
  | nil => exact h
  | cons b bs ih => exact ih (Memory.wf_write h a b) (a + 1)

theorem Memory.below_writeList {n : Nat} {m : Memory} (h : Memory.below n m) (a : Nat) (bs : List Byte)
    (hn : a + bs.length ≤ n) : Memory.below n (m.writeList a bs) := by
  induction bs generalizing m a with
  | nil => exact h
  | cons b bs ih =>
    simp only [List.length_cons] at hn
    exact ih (Memory.below_write h (by omega) b) (a + 1) (by omega)

/-- `MemWrite`: byte `i` of the list stands at address `a + i`, every other byte is as before. -/
theorem Memory.read_writeList {m : Memory} (h : Memory.wf m) (a : Nat) (bs : List Byte) (x : Nat) :
    (m.writeList a bs).read x = if a ≤ x ∧ x < a + bs.length then bs.getD (x - a) 0#8 else m.read x := by
  induction bs generalizing m a with
  | nil => rw [if_neg (by simp), Memory.writeList]
  | cons b bs ih =>
    rw [Memory.writeList, ih (Memory.wf_write h a b)]
    by_cases hx : x = a
    · subst hx
      rw [if_neg (by omega), Memory.read_write_self h, if_pos (by simp)]
      simp
    · by_cases h1 : a + 1 ≤ x ∧ x < a + 1 + bs.length
      · have h2 : a ≤ x ∧ x < a + (b :: bs).length := ⟨by omega, by simp; omega⟩
        obtain ⟨k, hk⟩ : ∃ k, x - a = k + 1 := ⟨x - a - 1, by omega⟩
        rw [if_pos h1, if_pos h2, hk, show x - (a + 1) = k by omega]
        rfl
      · have h2 : ¬(a ≤ x ∧ x < a + (b :: bs).length) := by simp; omega
        rw [if_neg h1, if_neg h2, Memory.read_write_of_ne h b hx]

@[simp] theorem length_beBytes (n v : Nat) : (beBytes n v).length = n := by
  induction n with
  | zero => rfl
  | succ n ih => simp [beBytes, ih]

/-- The integer of a list of bytes, one byte at a time from the front. -/
theorem beNat_cons (b : Byte) (bs : List Byte) : beNat (b :: bs) = b.toNat * 256 ^ bs.length + beNat bs := by
  have key : ∀ (l : List Byte) (v : Nat),
      l.foldl (fun v b => v * 256 + b.toNat) v = v * 256 ^ l.length + l.foldl (fun v b => v * 256 + b.toNat) 0 := by
    intro l
    induction l with
    | nil => simp
    | cons c l ih =>
      intro v
      rw [List.foldl_cons, List.foldl_cons, ih, ih (0 * 256 + c.toNat), List.length_cons, Nat.pow_succ]
      ring
  simpa [beNat] using key bs b.toNat

@[simp] theorem beNat_nil : beNat [] = 0 := rfl

/-- The integer of `n` bytes is below `256^n`. -/
theorem beNat_lt (bs : List Byte) : beNat bs < 256 ^ bs.length := by
  induction bs with
  | nil => simp
  | cons b bs ih =>
    rw [beNat_cons, List.length_cons, Nat.pow_succ]
    have hb : b.toNat < 256 := b.isLt
    nlinarith [Nat.zero_le (256 ^ bs.length)]

/-- The bytes of an integer give it back, reduced to their number. -/
theorem beNat_beBytes (n v : Nat) : beNat (beBytes n v) = v % 256 ^ n := by
  induction n with
  | zero => simp [beBytes, Nat.mod_one]
  | succ n ih =>
    rw [beBytes, beNat_cons, ih, length_beBytes, BitVec.toNat_ofNat, show (2 : Nat) ^ 8 = 256 from rfl,
      Nat.pow_succ 256, Nat.mod_mul]
    ring

theorem Memory.wf_writeBE {m : Memory} (h : Memory.wf m) (a n v : Nat) : Memory.wf (m.writeBE a n v) :=
  Memory.wf_writeList h a _

theorem Memory.below_writeBE {k : Nat} {m : Memory} (h : Memory.below k m) (a n v : Nat) (hk : a + n ≤ k) :
    Memory.below k (m.writeBE a n v) := Memory.below_writeList h a _ (by simpa using hk)

/-- `MemWriteBE` changes no byte outside its range. -/
theorem Memory.read_writeBE_of_outside {m : Memory} (h : Memory.wf m) (a n v x : Nat)
    (hx : ¬(a ≤ x ∧ x < a + n)) : (m.writeBE a n v).read x = m.read x := by
  rw [Memory.writeBE, Memory.read_writeList h, if_neg (by simpa using hx)]

/-- `MemReadBE` after `MemWriteBE` at the same place. -/
theorem Memory.readBE_writeBE_self {m : Memory} (h : Memory.wf m) (a n v : Nat) :
    (m.writeBE a n v).readBE a n = v % 256 ^ n := by
  rw [← beNat_beBytes n v, Memory.readBE]
  congr 1
  refine List.ext_getElem (by simp) fun i hi hi' => ?_
  rw [Memory.getElem_readList, Memory.writeBE, Memory.read_writeList h]
  have hin : i < n := by simpa using hi
  rw [if_pos ⟨by omega, by simpa using hin⟩]
  simp [hin]

/-- `MemReadBE` after `MemWriteBE` at ranges that do not meet. -/
theorem Memory.readBE_writeBE_of_disjoint {m : Memory} (h : Memory.wf m) (a b n k v : Nat)
    (hd : a + n ≤ b ∨ b + k ≤ a) : (m.writeBE b k v).readBE a n = m.readBE a n := by
  rw [Memory.readBE, Memory.readBE]
  congr 1
  refine Memory.readList_congr fun i hi => Memory.read_writeBE_of_outside h b k v _ (by omega)

/-! ### The contents hard reset brings -/

/-- The memory of a list of cells is canonical and holds no address at or above its size. -/
theorem Memory.ofCells_wf_below (size : Nat) (cells : List Host.Cell) :
    Memory.wf (Memory.ofCells size cells) ∧ Memory.below size (Memory.ofCells size cells) := by
  suffices h : ∀ m : Memory, Memory.wf m ∧ Memory.below size m →
      let m' := cells.foldl (fun m c => if c.1 < size then m.write c.1 c.2 else m) m
      Memory.wf m' ∧ Memory.below size m' from h [] ⟨Memory.wf_nil, by simp⟩
  induction cells with
  | nil => exact fun m h => h
  | cons c cells ih =>
    intro m h
    refine ih _ ?_
    show Memory.wf (if c.1 < size then m.write c.1 c.2 else m) ∧
      Memory.below size (if c.1 < size then m.write c.1 c.2 else m)
    split
    · exact ⟨Memory.wf_write h.1 _ _, Memory.below_write h.2 ‹_› _⟩
    · exact h

end Sys2Proof.Machine
end

