-- ==== Sys2Proof/Laws/Commands.lean ====
section
/-! SUPPORT. What each shared operation of the commands can do, said once: the loops over memory keep the canonical form
and the unit they step; a command's answer has one of a few shapes (`exec_shapes`); so has a step (`hostStep_shapes`). -/

namespace Sys2Proof.Machine

/-! ### Lanes -/

@[simp] theorem Lane.setEntry_p (L : Lane) (i v : Byte) : (L.setEntry i v).p = L.p := rfl
@[simp] theorem Lane.setEntry_q (L : Lane) (i v : Byte) : (L.setEntry i v).q = L.q := rfl

/-- An entry reads as what was written to it, the others as before. -/
theorem Lane.entry_setEntry (L : Lane) (i v j : Byte) :
    (L.setEntry i v).entry j = if j = i then v else L.entry j := by
  simp only [Lane.entry, Lane.setEntry, Vector.getElem_set, BitVec.toNat_inj, eq_comm (a := i)]

@[simp] theorem Lane.entry_setEntry_self (L : Lane) (i v : Byte) : (L.setEntry i v).entry i = v := by
  simp [Lane.entry_setEntry]

@[simp] theorem Lane.entry_mk_cursors (L : Lane) (p q i : Byte) :
    Lane.entry { S := L.S, p := p, q := q } i = L.entry i := rfl

@[simp] theorem Lane.clear_entry (L : Lane) (i : Byte) : L.clear.entry i = 0#8 := by
  simp [Lane.entry, Lane.clear]

@[simp] theorem Lane.clear_p (L : Lane) : L.clear.p = 0#8 := rfl
@[simp] theorem Lane.clear_q (L : Lane) : L.clear.q = 0#8 := rfl

/-- A cleared lane is the lane of hard reset. -/
theorem Lane.clear_eq_zero (L : Lane) : L.clear = Lane.zero := rfl

/-- Lanes with equal cursors and entries are equal. -/
theorem Lane.ext_entries {L L' : Lane} (hp : L.p = L'.p) (hq : L.q = L'.q) (he : ∀ i, L.entry i = L'.entry i) :
    L = L' := by
  obtain ⟨S, p, q⟩ := L
  obtain ⟨S', p', q'⟩ := L'
  obtain rfl : p = p' := hp
  obtain rfl : q = q' := hq
  congr
  refine Vector.ext fun i hi => ?_
  have h := he (BitVec.ofNat 8 i)
  simpa [Lane.entry, Nat.mod_eq_of_lt hi] using h

/-- Absorbing a list is absorbing its parts in order. -/
theorem Lane.absorb_append (L : Lane) (xs ys : List Byte) : L.absorb (xs ++ ys) = (L.absorb xs).absorb ys := by
  induction xs generalizing L with
  | nil => rfl
  | cons x xs ih => exact ih _

/-- A keyed lane does not depend on what the lane held. -/
theorem Lane.construct_eq_of_key (L L' : Lane) (key : List Byte) : L.construct key = L'.construct key := rfl

/-! ### Sources -/

@[simp] theorem Source.unit_fill (src : Source) (buf : List Byte) : (src.fill buf).2.unit = src.unit := by
  induction buf generalizing src with
  | nil => rfl
  | cons b bs ih => simp [Source.fill, ih]

@[simp] theorem Source.length_fill (src : Source) (buf : List Byte) : (src.fill buf).1.length = buf.length := by
  induction buf generalizing src with
  | nil => rfl
  | cons b bs ih => simp [Source.fill, ih]

/-- The loop of `XOR` stays on its unit and keeps the canonical form. -/
theorem xorLoop_keeps (n a d : Nat) (src : Source) {m : Memory} (h : Memory.wf m) :
    (xorLoop n a d src m).1.unit = src.unit ∧ Memory.wf (xorLoop n a d src m).2 := by
  induction n generalizing a d src m with
  | zero => exact ⟨rfl, h⟩
  | succ n ih =>
    have := ih (a + 1) (d + 1) (src.step 0#8).2 (Memory.wf_write h d (m.read a ^^^ (src.step 0#8).1))
    simpa [xorLoop] using this

/-- The loop of `XOR` stays on its unit, whatever the memory. -/
@[simp] theorem xorLoop_unit (n a d : Nat) (src : Source) (m : Memory) :
    (xorLoop n a d src m).1.unit = src.unit := by
  induction n generalizing a d src m with
  | zero => rfl
  | succ n ih => simp [xorLoop, ih]

/-- The loop of `XOR` writes only its destination range. -/
theorem xorLoop_frame (n a d : Nat) (src : Source) {m : Memory} (h : Memory.wf m) (x : Nat)
    (hx : ¬(d ≤ x ∧ x < d + n)) : (xorLoop n a d src m).2.read x = m.read x := by
  induction n generalizing a d src m with
  | zero => rfl
  | succ n ih =>
    rw [xorLoop, ih _ _ _ (Memory.wf_write h _ _) (by omega), Memory.read_write_of_ne h _ (by omega)]

/-- The loop of `XOR` lists no address at or above a bound its destination lies under. -/
theorem xorLoop_below (n a d : Nat) (src : Source) {k : Nat} {m : Memory} (h : Memory.below k m) (hk : d + n ≤ k) :
    Memory.below k (xorLoop n a d src m).2 := by
  induction n generalizing a d src m with
  | zero => exact h
  | succ n ih => exact ih _ _ _ (Memory.below_write h (by omega) _) (by omega)

/-- The rejection loop stays on its unit. -/
theorem drawLoop_unit {max bitLen fuel : Nat} {src : Source} {acc : List Byte} {r : Nat × Source}
    (h : drawLoop max bitLen fuel src acc = some r) : r.2.unit = src.unit := by
  induction fuel generalizing src acc with
  | zero => cases h
  | succ fuel ih =>
    simp only [drawLoop] at h
    split at h
    · cases h
      simp
    · simpa using ih h

/-- `UniformBelow` stays on its unit. -/
theorem uniformBelow_unit {src : Source} {max : Nat} {r : Nat × Source} (h : uniformBelow src max = some r) :
    r.2.unit = src.unit := by
  rw [uniformBelow] at h
  split at h
  · cases h
    rfl
  · exact drawLoop_unit h

/-! ### The loops of `PERM` and `SHUF` -/

theorem zeroFill_wf (n base : Nat) {m : Memory} (h : Memory.wf m) : Memory.wf (zeroFill n base m) := by
  induction n generalizing base m with
  | zero => exact h
  | succ n ih => exact ih _ (Memory.wf_writeBE h _ _ _)

theorem zeroFill_below (n base : Nat) {k : Nat} {m : Memory} (h : Memory.below k m)
    (hk : base + permEntryBytes * n ≤ k) : Memory.below k (zeroFill n base m) := by
  induction n generalizing base m with
  | zero => exact h
  | succ n ih =>
    simp only [permEntryBytes] at hk ⊢
    exact ih _ (Memory.below_writeBE h _ _ _ (show base + 8 ≤ k by omega)) (show base + 8 + 8 * n ≤ k by omega)

/-- The zero fill writes only its range. -/
theorem zeroFill_frame (n base : Nat) {m : Memory} (h : Memory.wf m) (x : Nat)
    (hx : ¬(base ≤ x ∧ x < base + permEntryBytes * n)) : (zeroFill n base m).read x = m.read x := by
  induction n generalizing base m with
  | zero => rfl
  | succ n ih =>
    simp only [permEntryBytes] at hx
    rw [zeroFill, ih _ (Memory.wf_writeBE h _ _ _) (by simp only [permEntryBytes]; omega),
      Memory.read_writeBE_of_outside h _ _ _ _ (by simp only [permEntryBytes]; omega)]

theorem permLoop_keeps {steps i base : Nat} {src : Source} {m : Memory} {r : Source × Memory} (h : Memory.wf m)
    (hr : permLoop steps i base src m = some r) : r.1.unit = src.unit ∧ Memory.wf r.2 := by
  induction steps generalizing i src m with
  | zero =>
    cases hr
    exact ⟨rfl, h⟩
  | succ steps ih =>
    simp only [permLoop] at hr
    split at hr
    · cases hr
    · have hu := uniformBelow_unit ‹_›
      have := ih (Memory.wf_writeBE (Memory.wf_writeBE h _ _ _) _ _ _) hr
      exact ⟨this.1.trans hu, this.2⟩

theorem permLoop_unit {steps i base : Nat} {src : Source} {m : Memory} {r : Source × Memory}
    (hr : permLoop steps i base src m = some r) : r.1.unit = src.unit := by
  induction steps generalizing i src m with
  | zero =>
    cases hr
    rfl
  | succ steps ih =>
    simp only [permLoop] at hr
    split at hr
    · cases hr
    · exact (ih hr).trans (uniformBelow_unit ‹_›)

theorem copyLoop_wf (n a d : Nat) {m : Memory} (h : Memory.wf m) : Memory.wf (copyLoop n a d m) := by
  induction n generalizing a d m with
  | zero => exact h
  | succ n ih => exact ih _ _ (Memory.wf_write h _ _)

theorem copyLoop_below (n a d : Nat) {k : Nat} {m : Memory} (h : Memory.below k m) (hk : d + n ≤ k) :
    Memory.below k (copyLoop n a d m) := by
  induction n generalizing a d m with
  | zero => exact h
  | succ n ih => exact ih _ _ (Memory.below_write h (by omega) _) (by omega)

/-- The copy writes only its destination range. -/
theorem copyLoop_frame (n a d : Nat) {m : Memory} (h : Memory.wf m) (x : Nat) (hx : ¬(d ≤ x ∧ x < d + n)) :
    (copyLoop n a d m).read x = m.read x := by
  induction n generalizing a d m with
  | zero => rfl
  | succ n ih =>
    rw [copyLoop, ih _ _ (Memory.wf_write h _ _) (by omega), Memory.read_write_of_ne h _ (by omega)]

/-- The copy, for every placement of the two ranges: a destination byte is the one `copiedByte` gives. -/
theorem copyLoop_read (n a d : Nat) {m : Memory} (h : Memory.wf m) {j : Nat} (hj : j < n) :
    (copyLoop n a d m).read (d + j) = copiedByte m a d j := by
  induction n generalizing a d m j with
  | zero => omega
  | succ n ih =>
    rw [copyLoop]
    cases j with
    | zero => rw [copyLoop_frame _ _ _ (Memory.wf_write h _ _) _ (by omega)]; simp [copiedByte, Memory.read_write h]
    | succ j =>
      rw [show d + (j + 1) = d + 1 + j by omega, ih _ _ (Memory.wf_write h _ _) (by omega)]
      simp only [copiedByte, Nat.add_lt_add_iff_right, Nat.add_sub_add_right]
      split
      · have hlt : j % (d - a) < d - a := Nat.mod_lt _ (by omega)
        have hmod : (j + 1) % (d - a) = if j % (d - a) + 1 = d - a then 0 else j % (d - a) + 1 := by
          rw [← Nat.mod_add_mod]
          split
          · simp [*]
          · exact Nat.mod_eq_of_lt (by omega)
        rw [hmod, Memory.read_write h]
        split <;> split <;> first | omega | (congr 1; omega) | rfl
      · rw [Memory.read_write_of_ne h _ (by omega)]
        congr 1
        omega

theorem swapBytes_wf (n x y : Nat) {m : Memory} (h : Memory.wf m) : Memory.wf (swapBytes n x y m) := by
  induction n generalizing x y m with
  | zero => exact h
  | succ n ih => exact ih _ _ (Memory.wf_write (Memory.wf_write h _ _) _ _)

theorem swapBytes_below (n x y : Nat) {k : Nat} {m : Memory} (h : Memory.below k m) (hx : x + n ≤ k)
    (hy : y + n ≤ k) : Memory.below k (swapBytes n x y m) := by
  induction n generalizing x y m with
  | zero => exact h
  | succ n ih =>
    exact ih _ _ (Memory.below_write (Memory.below_write h (by omega) _) (by omega) _) (by omega) (by omega)

/-- A swap writes only its two ranges. -/
theorem swapBytes_frame (n x y : Nat) {m : Memory} (h : Memory.wf m) (a : Nat) (hx : ¬(x ≤ a ∧ a < x + n))
    (hy : ¬(y ≤ a ∧ a < y + n)) : (swapBytes n x y m).read a = m.read a := by
  induction n generalizing x y m with
  | zero => rfl
  | succ n ih =>
    rw [swapBytes, ih _ _ (Memory.wf_write (Memory.wf_write h _ _) _ _) (by omega) (by omega),
      Memory.read_write_of_ne (Memory.wf_write h _ _) _ (by omega), Memory.read_write_of_ne h _ (by omega)]

theorem shufLoop_keeps {esz base i : Nat} {src : Source} {m : Memory} {r : Source × Memory} (h : Memory.wf m)
    (hr : shufLoop esz base i src m = some r) : r.1.unit = src.unit ∧ Memory.wf r.2 := by
  induction i generalizing src m with
  | zero =>
    cases hr
    exact ⟨rfl, h⟩
  | succ i ih =>
    simp only [shufLoop] at hr
    split at hr
    · cases hr
    · have hu := uniformBelow_unit ‹_›
      have := ih (swapBytes_wf _ _ _ h) hr
      exact ⟨this.1.trans hu, this.2⟩

theorem shufLoop_unit {esz base i : Nat} {src : Source} {m : Memory} {r : Source × Memory}
    (hr : shufLoop esz base i src m = some r) : r.1.unit = src.unit := by
  induction i generalizing src m with
  | zero =>
    cases hr
    rfl
  | succ i ih =>
    simp only [shufLoop] at hr
    split at hr
    · cases hr
    · exact (ih hr).trans (uniformBelow_unit ‹_›)

/-! ### Commands -/

/-- The state after a command that completes: its unit, its memory and `R0` replaced, `BUSY` 0. -/
def completed (s : State) (src : Source) (m : Memory) (v : Word64) : State :=
  (((s.putSource src).setMem m).setR0 v).complete

/-- The shapes a command's answer can have: it raises `INVALID_ARGUMENT` or `BOUNDS`, it never completes, or it
completes and has replaced the contents of one unit, some memory and `R0`. -/
inductive Shape (u : Src) (s : State) : State → Prop where
  | invalidArgument : Shape u s (s.raise .invalidArgument)
  | bounds : Shape u s (s.raise .bounds)
  | hang : Shape u s s.hang
  | completed (src : Source) (m : Memory) (v : Word64) (hu : src.unit = u) (hm : Memory.wf s.mem → Memory.wf m) :
      Shape u s (completed s src m v)

/-- A command that replaces only lane `CC` completes. -/
theorem Shape.ofCc (s : State) (l : Lane) : Shape .cc s { s with cc := l }.complete :=
  .completed (.cc l) s.mem s.r0 rfl id

/-- A command that replaces only the lanes of unit `CAS` completes. -/
theorem Shape.ofCas (s : State) (c : Cascade) : Shape .cas s { s with cas := c }.complete :=
  .completed (.cas c) s.mem s.r0 rfl id

theorem xorOn_shape (u : Src) (s : State) : Shape u s (xorOn u s) := by
  unfold xorOn
  split
  · exact .bounds
  · split
    · exact .bounds
    · have h := Shape.completed (u := u) (s := s) (xorLoop s.a1.toNat s.a0.toNat s.a2.toNat (s.source u) s.mem).1
        (xorLoop s.a1.toNat s.a0.toNat s.a2.toNat (s.source u) s.mem).2 s.r0 (by simp)
        (fun hm => (xorLoop_keeps _ _ _ _ hm).2)
      have e : completed s (xorLoop s.a1.toNat s.a0.toNat s.a2.toNat (s.source u) s.mem).1
          (xorLoop s.a1.toNat s.a0.toNat s.a2.toNat (s.source u) s.mem).2 s.r0 =
          ((s.putSource (xorLoop s.a1.toNat s.a0.toNat s.a2.toNat (s.source u) s.mem).1).setMem
            (xorLoop s.a1.toNat s.a0.toNat s.a2.toNat (s.source u) s.mem).2).complete := by
        cases (xorLoop s.a1.toNat s.a0.toNat s.a2.toNat (s.source u) s.mem).1 <;> rfl
      exact e ▸ h

theorem readOn_shape (u : Src) (s : State) : Shape u s (readOn u s) := by
  unfold readOn
  split
  · exact .bounds
  · exact .completed _ _ _ (by simp) (fun hm => (xorLoop_keeps _ _ _ _ hm).2)

theorem sampleTo_shape (u : Src) (arg : ArgResult) (s : State) : Shape u s (sampleTo u arg s) := by
  unfold sampleTo
  split
  · exact .invalidArgument
  · have h := Shape.completed (u := u) (s := s) (s.source u) s.mem 0#64 (by simp) id
    rwa [completed, State.putSource_source] at h
  · split
    · exact .hang
    · rename_i v src hb
      have h := Shape.completed (u := u) (s := s) src s.mem (BitVec.ofNat 64 v)
        (by simpa using uniformBelow_unit hb) id
      have e : completed s src s.mem (BitVec.ofNat 64 v) = ((s.putSource src).setR0 (BitVec.ofNat 64 v)).complete := by
        cases src <;> rfl
      exact e ▸ h

/-- Every command answers a next state, of one of the shapes. -/
theorem exec_shapes (i : Instr) (s : State) : ∃ t, exec i s = .next t ∧ Shape (unitOf i) s t := by
  cases i with
  | resetCc => exact ⟨_, rfl, Shape.ofCc s _⟩
  | resetCas => exact ⟨_, rfl, Shape.ofCas s _⟩
  | keyCc =>
    simp only [exec, execKeyCc]
    split
    · exact ⟨_, rfl, .bounds⟩
    · exact ⟨_, rfl, Shape.ofCc s _⟩
  | keyCas =>
    simp only [exec, execKeyCas]
    split
    · exact ⟨_, rfl, .bounds⟩
    · exact ⟨_, rfl, Shape.ofCas s _⟩
  | stepCc x => exact ⟨_, rfl, .completed (.cc (s.cc.coreStep x).2) s.mem ((s.cc.coreStep x).1.setWidth 64) rfl id⟩
  | stepCas x => exact ⟨_, rfl, .completed (.cas (s.cas.step x).2) s.mem ((s.cas.step x).1.setWidth 64) rfl id⟩
  | xorCc => exact ⟨_, rfl, xorOn_shape _ s⟩
  | xorCas => exact ⟨_, rfl, xorOn_shape _ s⟩
  | readCc => exact ⟨_, rfl, readOn_shape _ s⟩
  | readCas => exact ⟨_, rfl, readOn_shape _ s⟩
  | ubelowS u => exact ⟨_, rfl, sampleTo_shape u _ s⟩
  | ubelowU u => exact ⟨_, rfl, sampleTo_shape u _ s⟩
  | ugenU8 u => exact ⟨_, rfl, sampleTo_shape u _ s⟩
  | ugenU16 u => exact ⟨_, rfl, sampleTo_shape u _ s⟩
  | ugenU32 u => exact ⟨_, rfl, sampleTo_shape u _ s⟩
  | ugenU64 u => exact ⟨_, rfl, sampleTo_shape u _ s⟩
  | ugenI8 u => exact ⟨_, rfl, sampleTo_shape u _ s⟩
  | ugenI16 u => exact ⟨_, rfl, sampleTo_shape u _ s⟩
  | ugenI32 u => exact ⟨_, rfl, sampleTo_shape u _ s⟩
  | ugenI64 u => exact ⟨_, rfl, sampleTo_shape u _ s⟩
  | perm u =>
    simp only [exec, execPerm]
    split
    · exact ⟨_, rfl, .invalidArgument⟩
    · split
      · exact ⟨_, rfl, .bounds⟩
      · split
        · exact ⟨_, rfl, .hang⟩
        · rename_i src m hr
          refine ⟨_, rfl, ?_⟩
          have h := Shape.completed (u := u) (s := s) src m s.r0 (by simpa using permLoop_unit hr)
            (fun hm => (permLoop_keeps (zeroFill_wf _ _ hm) hr).2)
          have e : completed s src m s.r0 = ((s.putSource src).setMem m).complete := by cases src <;> rfl
          exact e ▸ h
  | shuf u =>
    simp only [exec, execShuf]
    split
    · exact ⟨_, rfl, .bounds⟩
    · split
      · exact ⟨_, rfl, .bounds⟩
      · split
        · exact ⟨_, rfl, .hang⟩
        · rename_i src m hr
          refine ⟨_, rfl, ?_⟩
          have h := Shape.completed (u := u) (s := s) src m s.r0 (by simpa using shufLoop_unit hr)
            (fun hm => (shufLoop_keeps (copyLoop_wf _ _ _ hm) hr).2)
          have e : completed s src m s.r0 = ((s.putSource src).setMem m).complete := by cases src <;> rfl
          exact e ▸ h

/-! ### Steps -/

/-- While no command runs the next access is the first issued. -/
@[simp] theorem takeNext_idle (a : HostAction) (rest : List HostAction) : takeNext false (a :: rest) = some (a, rest) := by
  simp [takeNext]

@[simp] theorem takeNext_nil (busy : Bool) : takeNext busy [] = none := rfl

/-- While a command runs, what is taken passes, and what waited before it did not. -/
theorem takeNext_busy {q : List HostAction} {a : HostAction} {rest : List HostAction}
    (h : takeNext true q = some (a, rest)) :
    passesBusy a = true ∧ ∃ held, (∀ b ∈ held, passesBusy b = false) ∧ ∃ after, q = held ++ a :: after ∧
      rest = held ++ after := by
  induction q generalizing rest with
  | nil => cases h
  | cons b q ih =>
    simp only [takeNext, Bool.true_eq_false, false_or] at h
    split at h
    · cases h
      exact ⟨‹_›, [], by simp, q, rfl, rfl⟩
    · cases hq : takeNext true q with
      | none => simp [hq] at h
      | some r =>
        simp only [hq, Option.map_some, Option.some.injEq, Prod.mk.injEq] at h
        obtain ⟨rfl, rfl⟩ := h
        obtain ⟨hp, held, hheld, after, rfl, hr⟩ := ih hq
        refine ⟨hp, b :: held, ?_, after, rfl, by simp [hr]⟩
        intro c hc
        rcases List.mem_cons.1 hc with rfl | hc
        · simpa using ‹¬passesBusy c = true›
        · exact hheld c hc

/-- A step performs one access, or nothing. -/
theorem step_shapes (s : State) :
    (takeNext s.busy s.pending = none ∧ step s = .next s) ∨
    ∃ a rest, takeNext s.busy s.pending = some (a, rest) ∧ step s = perform a { s with pending := rest } := by
  unfold step hostStep
  cases h : takeNext s.busy s.pending with
  | none => exact .inl ⟨rfl, rfl⟩
  | some r => exact .inr ⟨r.1, r.2, rfl, rfl⟩

end Sys2Proof.Machine
end

