-- ==== Sys2Proof/Laws/PerInstr.lean ====
section
/-! SUPPORT. One law about every instruction, made instruction by instruction: its word selects the row of the opcode
table that has its mnemonic (`30_encoding.md` rule R78). -/

namespace Sys2Proof.Laws.EncodesItsRow

/-- The instruction's word selects a row of the opcode table, and the row's mnemonic is the instruction's. -/
def Statement (i : Instr) : Prop := ∃ r ∈ opcodeTable, r.mnemonic = i.mnemonic ∧ r.selects (encode i) = true

/-- The mask of `STEP` hides `IMM8` (bits 23:16) and nothing else of the word. -/
theorem step_word_masked (u : Src) (x : Byte) :
    cmd32 0x03#8 u 0#3 x &&& 0xFF00FFFF#32 = cmd32 0x03#8 u 0#3 0#8 := by
  cases u <;> revert x <;> decide +kernel

theorem resetCc : Statement .resetCc := ⟨opcodeTable[0], by decide, by decide, by decide⟩

theorem resetCas : Statement .resetCas := ⟨opcodeTable[1], by decide, by decide, by decide⟩

theorem keyCc : Statement .keyCc := ⟨opcodeTable[2], by decide, by decide, by decide⟩

theorem keyCas : Statement .keyCas := ⟨opcodeTable[3], by decide, by decide, by decide⟩

theorem stepCc (imm8 : Byte) : Statement (.stepCc imm8) :=
  ⟨opcodeTable[4], by decide, rfl, by
    show decide (cmd32 0x03#8 .cc 0#3 imm8 &&& 0xFF00FFFF#32 = _) = true
    rw [step_word_masked]
    decide⟩

theorem stepCas (imm8 : Byte) : Statement (.stepCas imm8) :=
  ⟨opcodeTable[5], by decide, rfl, by
    show decide (cmd32 0x03#8 .cas 0#3 imm8 &&& 0xFF00FFFF#32 = _) = true
    rw [step_word_masked]
    decide⟩

theorem xorCc : Statement .xorCc := ⟨opcodeTable[6], by decide, by decide, by decide⟩

theorem xorCas : Statement .xorCas := ⟨opcodeTable[7], by decide, by decide, by decide⟩

theorem readCc : Statement .readCc := ⟨opcodeTable[8], by decide, by decide, by decide⟩

theorem readCas : Statement .readCas := ⟨opcodeTable[9], by decide, by decide, by decide⟩

theorem ubelowS (src : Src) : Statement (.ubelowS src) := by
  cases src <;> exact ⟨opcodeTable[10], by decide, by decide, by decide⟩

theorem ubelowU (src : Src) : Statement (.ubelowU src) := by
  cases src <;> exact ⟨opcodeTable[11], by decide, by decide, by decide⟩

theorem ugenU8 (src : Src) : Statement (.ugenU8 src) := by
  cases src <;> exact ⟨opcodeTable[12], by decide, by decide, by decide⟩

theorem ugenU16 (src : Src) : Statement (.ugenU16 src) := by
  cases src <;> exact ⟨opcodeTable[13], by decide, by decide, by decide⟩

theorem ugenU32 (src : Src) : Statement (.ugenU32 src) := by
  cases src <;> exact ⟨opcodeTable[14], by decide, by decide, by decide⟩

theorem ugenU64 (src : Src) : Statement (.ugenU64 src) := by
  cases src <;> exact ⟨opcodeTable[15], by decide, by decide, by decide⟩

theorem ugenI8 (src : Src) : Statement (.ugenI8 src) := by
  cases src <;> exact ⟨opcodeTable[16], by decide, by decide, by decide⟩

theorem ugenI16 (src : Src) : Statement (.ugenI16 src) := by
  cases src <;> exact ⟨opcodeTable[17], by decide, by decide, by decide⟩

theorem ugenI32 (src : Src) : Statement (.ugenI32 src) := by
  cases src <;> exact ⟨opcodeTable[18], by decide, by decide, by decide⟩

theorem ugenI64 (src : Src) : Statement (.ugenI64 src) := by
  cases src <;> exact ⟨opcodeTable[19], by decide, by decide, by decide⟩

theorem perm (src : Src) : Statement (.perm src) := by
  cases src <;> exact ⟨opcodeTable[20], by decide, by decide, by decide⟩

theorem shuf (src : Src) : Statement (.shuf src) := by
  cases src <;> exact ⟨opcodeTable[21], by decide, by decide, by decide⟩

end Sys2Proof.Laws.EncodesItsRow
end

