-- ==== Sys2Proof/Tests/Slice0.lean ====
section
/-! SUPPORT. Tests. Expected values are copied from the vectors of `95_test_vectors.md` (named where used) or worked by
hand from the rules; where a lane is all zero its keystream is 1, 2, 3, ... (vector T1) and that of the all-zero cascade
is 5, 8, 12, 16 (vector A3). The last part gives, for each statement with hypotheses, concrete values that meet them. -/

namespace Sys2Proof.Tests

open Sys2Proof Sys2Proof.Machine

-- One after another: each of many checks at once would hold a thread, and with it a stack, until its turn.
set_option Elab.async false

/-! ### Helpers -/

/-- The next state of an outcome, if it is one. -/
def next? (r : Result) : Option State :=
  match r with
  | .next t => some t
  | .fault _ => none
  | .refused _ => none

/-- What `f` gives on the next state. -/
def seen {α : Type} (r : Result) (f : State → α) : Option α := (next? r).map f

/-- The block after reset with given operand registers. -/
def withOps (x0 x1 x2 x3 : Word64) : State := { State.reset with a0 := x0, a1 := x1, a2 := x2, a3 := x3 }

/-- The block after reset with host accesses issued. -/
def issued (l : List HostAction) : State := { State.reset with pending := l }

/-- A lane's cursors. -/
def cursors (L : Lane) : Nat × Nat := (L.p.toNat, L.q.toNat)

/-- The sum of a lane's table, as vector S1 checks it; 0 when every entry is 0. -/
def tableSum (L : Lane) : Nat := L.S.toList.foldl (fun n b => n + b.toNat) 0

/-- The bytes of `M` from an address, as numbers. -/
def bytesAt (s : State) (a n : Nat) : List Nat := (s.mem.readList a n).map BitVec.toNat

/-! ### Well-formedness: each check refuses an ill-formed line -/

theorem test_line_accepted : (Line.command .keyCc [0x100, 9]).wellFormed = true := by decide

theorem test_line_signed_operand_accepted : (Line.command (.ubelowS .cc) [-(2 ^ 63)]).wellFormed = true := by decide

theorem test_line_too_few_operands : (Line.command .keyCc [0x100]).wellFormed = false := by decide

theorem test_line_too_many_operands : (Line.command (.stepCc 5) [1]).wellFormed = false := by decide

theorem test_line_operand_too_big : (Line.command .keyCc [2 ^ 64, 9]).wellFormed = false := by decide

theorem test_line_negative_unsigned : (Line.command (.ugenU8 .cc) [-1]).wellFormed = false := by decide

theorem test_line_negative_too_low : (Line.command (.ubelowS .cc) [-(2 ^ 63) - 1]).wellFormed = false := by decide

theorem test_line_negative_address : (Line.command (.perm .cc) [3, -1]).wellFormed = false := by decide

theorem test_pseudo_too_few_operands : (Line.pseudo .encrypt .cas [0, 16]).wellFormed = false := by decide

theorem test_wrm_beyond_addresses : (Line.wrm (2 ^ 64 - 1) [1, 2]).wellFormed = false := by decide

theorem test_rdm_beyond_addresses : (Line.rdm (2 ^ 64) 1).wellFormed = false := by decide

theorem test_wrm_at_last_address : (Line.wrm (2 ^ 64 - 1) [1]).wellFormed = true := by decide

/-! ### Decoding: words written out from `30_encoding.md` rules R70, R72 to R75, field by field -/

theorem test_decode_cipher_words :
    [0x00000001#32, 0x00000101#32, 0x00000002#32, 0x00000102#32, 0x00000004#32, 0x00000104#32, 0x00000005#32,
      0x00000105#32].map decode =
    [.ok .resetCc, .ok .resetCas, .ok .keyCc, .ok .keyCas, .ok .xorCc, .ok .xorCas, .ok .readCc, .ok .readCas] := by
  decide

/-- `IMM8` is bits 23:16, `SRC` bit 8, `OP` bits 7:0. -/
theorem test_decode_step_bits :
    decode 0b00000000_01010011_00000000_00000011#32 = .ok (.stepCc 0x53) ∧
    decode 0b00000000_11111110_00000001_00000011#32 = .ok (.stepCas 0xFE) := by decide

theorem test_decode_sampler_words :
    [0x00000010#32, 0x00000110#32, 0x00000011#32, 0x00000111#32, 0x00000018#32, 0x00000118#32, 0x00000019#32,
      0x00000119#32].map decode =
    [.ok (.ubelowS .cc), .ok (.ubelowS .cas), .ok (.ubelowU .cc), .ok (.ubelowU .cas), .ok (.perm .cc),
      .ok (.perm .cas), .ok (.shuf .cc), .ok (.shuf .cas)] := by decide

/-- `TY` is bits 14:12; the words are those of vectors 4.3. -/
theorem test_decode_ugen_words :
    [0x00000012#32, 0x00001012#32, 0x00002012#32, 0x00003012#32, 0x00004012#32, 0x00005112#32, 0x00006012#32,
      0x00007112#32].map decode =
    [.ok (.ugenU8 .cc), .ok (.ugenU16 .cc), .ok (.ugenU32 .cc), .ok (.ugenU64 .cc), .ok (.ugenI8 .cc),
      .ok (.ugenI16 .cas), .ok (.ugenI32 .cc), .ok (.ugenI64 .cas)] := by decide

/-- Vectors F1 to F7. -/
theorem test_decode_illegal :
    [0x00000000#32, 0x00000006#32, 0x00010002#32, 0x00001010#32, 0x00000203#32, 0x00008012#32, 0x01000001#32].map
      decode =
    [.error .unassignedOp, .error .unassignedOp, .error .immField, .error .typeField, .error .reservedBit,
      .error .reservedBit, .error .reservedBit] := by decide

theorem test_decode_table_word :
    decodeTableWord 32 0x00FF0103 = some (.stepCas 0xFF) ∧ decodeTableWord 32 0x00000006 = none ∧
    decodeTableWord 32 0x00005112 = some (.ugenI16 .cas) := by decide

theorem test_register_numbers :
    [Reg.cmd, .status, .operand .a0, .operand .a1, .operand .a2, .operand .a3, .r0, .reserved].map Reg.number =
      [0, 1, 2, 3, 4, 5, 6, 7] := by decide

/-- The encodings of programs P1 line 4 and rule R82. -/
theorem test_line_actions :
    lineActions (.command .xorCc [0x200, 16, 0x200]) =
      [.writeOperand .a0 0x200, .writeOperand .a1 0x10, .writeOperand .a2 0x200, .writeCmd 0x00000004] ∧
    lineActions (.pseudo .decrypt .cas [1, 2, 3]) =
      [.writeOperand .a0 1, .writeOperand .a1 2, .writeOperand .a2 3, .writeCmd 0x00000104] ∧
    lineActions (.command (.ubelowS .cc) [-1]) = [.writeOperand .a0 0xFFFFFFFFFFFFFFFF, .writeCmd 0x00000010] := by
  decide

theorem test_wrm_rdm_actions :
    lineActions (.wrm 7 [0x0A, 0x14]) = [.writeMem 7 0x0A, .writeMem 8 0x14] ∧
    lineActions (.rdm 7 2) = [.readMem 7, .readMem 8] := by decide

/-! ### One step each -/

/-- Program P6 lines 3 and 4: `RESET.CC` zeroes the lane and keeps `R0`. -/
theorem test_reset_cc :
    seen (exec .resetCc { State.reset with r0 := 9, cc := ((Lane.zero.coreStep 1).2.coreStep 200).2 })
      (fun t => (cursors t.cc, tableSum t.cc, t.r0.toNat)) = some ((0, 0), 0, 9) := by decide +kernel

theorem test_reset_cas :
    seen (exec .resetCas { State.reset with cas := (Cascade.zero.step 5).2, cc := (Lane.zero.coreStep 1).2 })
      (fun t => ([t.cas.l0, t.cas.l3].map cursors, [t.cas.l0, t.cas.l3].map tableSum, cursors t.cc, tableSum t.cc)) =
      some ([(0, 0), (0, 0)], [0, 0], (1, 1), 3) := by decide +kernel

/-- The key-absorption part of vector S1: its nine outputs are the entries `S[1] .. S[9]`. -/
theorem test_key_absorption :
    ((List.range 10).map fun i =>
      ((Lane.zero.absorb [0x53, 0x65, 0x63, 0x72, 0x65, 0x74, 0x4B, 0x65, 0x79]).entry (BitVec.ofNat 8 i)).toNat) =
      [0, 84, 103, 102, 118, 106, 122, 82, 109, 130] ∧
    cursors (Lane.zero.absorb [0x53, 0x65, 0x63, 0x72, 0x65, 0x74, 0x4B, 0x65, 0x79]) = (9, 143) := by
  decide +kernel

/-- Vector F21: a key range that passes the end of `M` raises `BOUNDS`. -/
theorem test_key_cas_bounds :
    seen (exec .keyCas (withOps 0xFFF 2 0 0)) (fun t => ((statusWord t).toNat, tableSum t.cas.l0, t.r0.toNat)) =
      some (0x32, 0, 0) := by decide +kernel

/-- Vector T2, the line where `q = p`. -/
theorem test_step_cc_aliasing :
    seen (exec (.stepCc 1) State.reset) (fun t => (t.r0.toNat, cursors t.cc, (t.cc.entry 1).toNat)) =
      some (3, (1, 1), 3) := by decide +kernel

/-- Vector T2, the line that wraps. -/
theorem test_step_cc_wraps :
    seen (exec (.stepCc 255) State.reset) (fun t => (t.r0.toNat, cursors t.cc, (t.cc.entry 1).toNat)) =
      some (0, (1, 255), 0) := by decide +kernel

/-- Vector A3. -/
theorem test_step_cas :
    seen (exec (.stepCas 5) State.reset)
      (fun t => (t.r0.toNat, [t.cas.l0, t.cas.l1, t.cas.l2, t.cas.l3].map cursors,
        [t.cas.l0, t.cas.l1, t.cas.l2, t.cas.l3].map fun L => (L.entry 1).toNat)) =
      some (9, [(1, 5), (1, 6), (1, 7), (1, 8)], [6, 7, 8, 9]) := by decide +kernel

/-- Partly overlapping ranges, destination one above source: each byte written is read again (rule R64):
`1`, `1 xor 2 = 3`, `3 xor 3 = 0`. -/
theorem test_xor_cc_overlap :
    seen (exec .xorCc { withOps 0x40 3 0x41 0 with mem := [] }) (fun t => (bytesAt t 0x40 4, cursors t.cc)) =
      some ([0, 1, 3, 0], (3, 0)) := by decide +kernel

/-- Vector F25: the destination alone is out of range. -/
theorem test_xor_cc_bounds :
    seen (exec .xorCc (withOps 0 16 0xFF8 0)) (fun t => ((statusWord t).toNat, cursors t.cc)) =
      some (0x32, (0, 0)) := by decide +kernel

/-- Vector A3's keystream 5, 8, 12 on the bytes `FF 00 0C`, at another place. -/
theorem test_xor_cas :
    seen (exec .xorCas { withOps 0x10 3 0xFFD 0 with mem := [(0x10, 0xFF), (0x12, 0x0C)] })
      (fun t => (bytesAt t 0xFFD 3, bytesAt t 0x10 3, t.r0.toNat)) =
      some ([0xFA, 8, 0], [0xFF, 0, 0x0C], 0) := by decide +kernel

/-- `READ` XORs into what the buffer held (as vector X3) and counts. -/
theorem test_read_cc :
    seen (exec .readCc { withOps 0x20 3 0 0 with mem := [(0x20, 0xFF), (0x22, 0x03)] })
      (fun t => (bytesAt t 0x20 3, t.mem, t.r0.toNat)) =
      some ([0xFE, 2, 0], [(0x20, 0xFE), (0x21, 2)], 3) := by decide +kernel

theorem test_read_cas :
    seen (exec .readCas (withOps 0x20 4 0 0))
      (fun t => (bytesAt t 0x20 4, t.r0.toNat, cursors t.cas.l3)) =
      some ([5, 8, 12, 16], 4, (4, 31)) := by decide +kernel

/-- Vector F8. -/
theorem test_ubelowS_zero :
    seen (exec (.ubelowS .cc) State.reset) (fun t => ((statusWord t).toNat, cursors t.cc)) = some (0x12, (0, 0)) := by
  decide +kernel

/-- `max = 10` on the all-zero cascade: draw 5, accepted. -/
theorem test_ubelowS_cas :
    seen (exec (.ubelowS .cas) (withOps 10 0 0 0)) (fun t => (t.r0.toNat, cursors t.cas.l0, cursors t.cc)) =
      some (5, (1, 0), (0, 0)) := by decide +kernel

/-- Vector F9. -/
theorem test_ubelowU_zero :
    seen (exec (.ubelowU .cc) { State.reset with r0 := 7 }) (fun t => (t.r0.toNat, (statusWord t).toNat)) =
      some (0, 0) := by decide +kernel

/-- The draw buffer is kept across rejections (rule R152): after two steps from the all-zero lane the draws are 3, 4, 5;
for `max = 3` the candidates are `3`, `3 xor 4 = 7`, low two bits 3, and `7 xor 5 = 2`, accepted. -/
theorem test_ubelowU_keeps_draw_buffer :
    seen (exec (.ubelowU .cc) { withOps 3 0 0 0 with cc := ((Lane.zero.coreStep 0).2.coreStep 0).2 })
      (fun t => (t.r0.toNat, cursors t.cc)) = some (2, (5, 0)) := by decide +kernel

/-- Vector F14. -/
theorem test_ugenU8_too_big :
    seen (exec (.ugenU8 .cc) (withOps 256 0 0 0)) (fun t => (statusWord t).toNat) = some 0x12 := by decide +kernel

theorem test_ugenU8 :
    seen (exec (.ugenU8 .cas) (withOps 255 0 0 0)) (fun t => t.r0.toNat) = some 5 := by decide +kernel

/-- `max = 1000`: ten bits of `01 02`. -/
theorem test_ugenU16 :
    seen (exec (.ugenU16 .cc) (withOps 1000 0 0 0)) (fun t => (t.r0.toNat, cursors t.cc)) = some (258, (2, 0)) := by
  decide +kernel

/-- `max = 65537`: seventeen bits of `01 02 03`, then of `05 07 05`, both rejected, then of `02 0F 0C`. -/
theorem test_ugenU32 :
    seen (exec (.ugenU32 .cc) (withOps 65537 0 0 0)) (fun t => (t.r0.toNat, cursors t.cc)) = some (3852, (9, 0)) := by
  decide +kernel

/-- `max = 2^63 + 1`: all sixty-four bits of `01 .. 08`. -/
theorem test_ugenU64 :
    seen (exec (.ugenU64 .cc) (withOps 0x8000000000000001 0 0 0)) (fun t => t.r0.toNat) =
      some 0x0102030405060708 := by decide +kernel

/-- Vector F15. -/
theorem test_ugenI8_too_big :
    seen (exec (.ugenI8 .cc) (withOps 128 0 0 0)) (fun t => (statusWord t).toNat) = some 0x12 := by decide +kernel

theorem test_ugenI8 :
    seen (exec (.ugenI8 .cas) (withOps 127 0 0 0)) (fun t => t.r0.toNat) = some 5 := by decide +kernel

/-- `max = 1000` on the cascade: ten bits of `05 08`. -/
theorem test_ugenI16 :
    seen (exec (.ugenI16 .cas) (withOps 1000 0 0 0)) (fun t => t.r0.toNat) = some 264 := by decide +kernel

/-- Twenty-four bits of `01 02 03`. -/
theorem test_ugenI32 :
    seen (exec (.ugenI32 .cc) (withOps 0x1000000 0 0 0)) (fun t => t.r0.toNat) = some 0x010203 := by decide +kernel

/-- The operand `-2^63` (vector F12 at `UGEN.I64`). -/
theorem test_ugenI64_negative :
    seen (exec (.ugenI64 .cc) (withOps 0x8000000000000000 0 0 0)) (fun t => (statusWord t).toNat) = some 0x12 := by
  decide +kernel

/-- The greatest `I64`: sixty-three bits of `01 .. 08`. -/
theorem test_ugenI64 :
    seen (exec (.ugenI64 .cc) (withOps 0x7FFFFFFFFFFFFFFF 0 0 0)) (fun t => t.r0.toNat) =
      some 0x0102030405060708 := by decide +kernel

/-- The all-zero cascade draws 5, 8: `j = 1`, then `j = 0`, so the entries are 2, 1, 0; the memory held ones. -/
theorem test_perm :
    seen (exec (.perm .cas) { withOps 3 0 0x40 0 with mem := [(0x40, 1), (0x57, 1), (0x58, 1)] })
      (fun t => (t.mem, cursors t.cas.l0, t.r0.toNat)) =
      some ([(0x47, 2), (0x4F, 1), (0x58, 1)], (2, 0), 0) := by decide +kernel

/-- Vector F19: the argument check comes before the range check. -/
theorem test_perm_negative :
    seen (exec (.perm .cc) (withOps 0xFFFFFFFFFFFFFFFF 0 0xFFFFFFFF 0)) (fun t => (statusWord t).toNat) =
      some 0x12 := by decide +kernel

/-- Three elements of two bytes, copied to `0x80`; the all-zero lane draws 1, 2: `j = 1` for `i = 2`, `j = 0` for
`i = 1`, so `AB CD EF` becomes `AB EF CD` and then `EF AB CD`. -/
theorem test_shuf :
    seen (exec (.shuf .cc) { withOps 0x40 3 0x80 2 with
        mem := [(0x40, 0x41), (0x41, 0x42), (0x42, 0x43), (0x43, 0x44), (0x44, 0x45), (0x45, 0x46)] })
      (fun t => (bytesAt t 0x80 6, bytesAt t 0x40 6, cursors t.cc)) =
      some ([0x45, 0x46, 0x41, 0x42, 0x43, 0x44], [0x41, 0x42, 0x43, 0x44, 0x45, 0x46], (2, 0)) := by decide +kernel

/-- Vector F27: `A1 * A3 = 2^64` does not wrap. -/
theorem test_shuf_bounds :
    seen (exec (.shuf .cc) (withOps 0 0x8000000000000000 0 2)) (fun t => (statusWord t).toNat) = some 0x32 := by
  decide +kernel

/-! ### The interface -/

/-- The command placed by `withFetchWord` is what the next step runs. -/
theorem test_withFetchWord :
    seen (step (State.reset.withFetchWord 32 0x00530003)) (fun t => (t.r0.toNat, t.pending)) = some (84, []) := by
  decide +kernel

/-- Vector F20: decoding comes before the argument check. -/
theorem test_illegal_first :
    seen (step { withOps 0xFFFFFFFFFFFFFFFF 0 0 0 with pending := [.writeCmd 0x00000218] })
      (fun t => (statusWord t).toNat) = some 0x22 := by decide +kernel

/-- Vector F28. -/
theorem test_halted_ignores :
    seen (step { State.reset with err := true, errcode := 1, pending := [.writeCmd 0x00000006] })
      (fun t => (statusWord t).toNat) = some 0x12 := by decide +kernel

/-- Rule R63: an access held behind a command that never completes lets a `STATUS` read pass. -/
theorem test_status_read_passes :
    seen (step { State.reset with busy := true, pending := [.readReg .r0, .readReg .status] })
      (fun t => (t.pending, t.replies)) = some ([.readReg .r0], [.reg .status 1]) := by decide +kernel

/-- Rule R37: index 257 is `q`. -/
theorem test_window_q :
    seen (step { issued [.readWindow (.cas 3) 257] with cas := (Cascade.zero.step 5).2 }) (fun t => t.replies) =
      some [.window (.cas 3) 257 8] := by decide +kernel

/-! ### Witnesses: concrete values that meet all the hypotheses of a statement, at the edges of its clauses

Each is named after its statement. The state is the one after reset, with what is said changed; `M` has 4096 bytes. -/

/-- A byte at the last address of `M`, and a range that ends there. -/
def edgeMem : Memory := [(0xFFF, 0x5A)]

theorem witness_HardResetZeroesTheBlock :
    takeNext true [.writeCmd 0x00000001, .hardReset edgeMem, .readReg .r0] =
      some (.hardReset edgeMem, [.writeCmd 0x00000001, .readReg .r0]) ∧
    takeNext false [.hardReset []] = some (.hardReset [], []) ∧
    Memory.wf edgeMem ∧ (∀ c ∈ edgeMem, c.1 < State.reset.cfg.memBytes) := by decide

theorem witness_EncodeRestoresDecodedWord :
    decode 0x00FF0103#32 = .ok (.stepCas 0xFF) ∧ decode 0x00007112#32 = .ok (.ugenI64 .cas) ∧
    decode 0x00000001#32 = .ok .resetCc := by decide

theorem witness_StepRunsTheDecodedCommand :
    (issued [.writeCmd 0x00000119, .readReg .r0]).Idle ∧ decode 0x00000119#32 = .ok (.shuf .cas) :=
  ⟨⟨rfl, rfl⟩, by decide⟩

theorem witness_IllegalCommandIsRaised :
    (issued [.writeCmd 0x01000001]).Idle ∧ (∀ r ∈ opcodeTable, 0x01000001#32 &&& r.mask ≠ r.pattern) ∧
    (∀ r ∈ opcodeTable, 0#32 &&& r.mask ≠ r.pattern) :=
  ⟨⟨rfl, rfl⟩, by decide, by decide⟩

theorem witness_CommandIsIgnoredWhileHalted :
    ∃ s : State, s.busy = false ∧ s.err = true ∧ s.pending = [.writeCmd 0x00000003] :=
  ⟨{ issued [.writeCmd 0x00000003] with err := true, errcode := 3 }, rfl, rfl, rfl⟩

/-- Two steps of a halted block: a write of the last byte of `M`, then a command that is ignored. -/
theorem witness_HaltedBlockStaysInert :
    ∃ s t : State, s.err = true ∧ Memory.wf s.mem ∧ (∀ c, .hardReset c ∉ s.pending) ∧
      Host.Core.run Sys2Proof.core 2 s = .next t ∧ (∀ b, .writeMem 0xFFE b ∉ s.pending) :=
  ⟨{ issued [.writeMem 0xFFF 7, .writeCmd 0x00000003] with err := true, errcode := 1 }, _, rfl, by decide, by simp [issued], rfl,
    by simp [issued]⟩

theorem witness_BusyHoldsAllButStatusReads :
    ∃ (s : State) (held : List HostAction), s.busy = true ∧
      (∀ a ∈ held, a ≠ .readReg .status ∧ ∀ c, a ≠ .hardReset c) ∧ s.pending = held ++ .readReg .status :: [] ∧
      ({ s with pending := held } : State).pending = held :=
  ⟨{ issued [.readReg .r0, .writeCmd 0x00000001, .readReg .status] with busy := true },
    [.readReg .r0, .writeCmd 0x00000001], rfl, by simp, rfl, rfl⟩

/-- Every access the table lists, first in the queue of an idle block. -/
theorem witness_RegisterAccessesFollowTheTable :
    ∀ a ∈ [HostAction.readReg .cmd, .readReg .status, .readReg (.operand .a3), .readReg .r0, .readReg .reserved,
      .writeOperand .a0 1, .writeOperand .a1 2, .writeOperand .a2 3, .writeOperand .a3 0xFFFFFFFFFFFFFFFF,
      .writeStatus 0xFFFFFFFF, .writeR0 5, .writeReserved 6],
      (issued [a]).busy = false ∧ (issued [a]).pending = a :: [] := fun _ _ => ⟨rfl, rfl⟩

theorem witness_StateWindowReadsTheLane :
    ∀ l ∈ [LaneName.cc, .cas 0, .cas 1, .cas 2, .cas 3], ∀ x ∈ [(0 : Fin 258), 255, 256, 257],
      (issued [.readWindow l x]).busy = false ∧ (issued [.readWindow l x]).pending = .readWindow l x :: [] :=
  fun _ _ _ _ => ⟨rfl, rfl⟩

/-- The last byte of `M` written, in a block that is not halted and in one that is; read; and written, then read there and
at the other end. -/
theorem witness_HostReadsBackWhatItWrote :
    (issued [.writeMem 0xFFF 0]).busy = false ∧ 0xFFF < State.reset.cfg.memBytes ∧ 0 < State.reset.cfg.memBytes ∧
    Memory.wf State.reset.mem ∧ Memory.wf edgeMem ∧
    ({ issued [.writeMem 0xFFF 0] with mem := edgeMem, err := true, errcode := 3 } : State).pending =
      .writeMem 0xFFF 0 :: [] ∧
    (issued [.readMem 0xFFF]).pending = .readMem 0xFFF :: [] ∧
    ∀ x ∈ [0xFFF, 0], (issued [.writeMem 0xFFF 0, .readMem x]).pending = .writeMem 0xFFF 0 :: .readMem x :: [] := by
  decide

/-- The first absent byte stops the step, the last existing one does not. -/
theorem witness_StepStopsOnlyOnAbsentBytes :
    step (issued [.readMem 0x1000]) = .fault (.absentByte 0x1000) ∧
    (next? (step (issued [.readMem 0xFFF]))).isSome = true := ⟨rfl, rfl⟩

/-- The edges of rule R191: -1 and 0 of a signed entry point, one above each limit and the limit itself, -1 and 0 of
`PERM`. -/
theorem witness_InvalidArgumentExactly :
    State.reset.err = false ∧
    invalidArgument (.ubelowS .cc) (withOps 0xFFFFFFFFFFFFFFFF 0 0 0) ∧
    invalidArgument (.ubelowS .cc) (withOps 0 0 0 0) ∧ ¬invalidArgument (.ubelowS .cc) (withOps 1 0 0 0) ∧
    invalidArgument (.ugenI8 .cc) (withOps 128 0 0 0) ∧ ¬invalidArgument (.ugenI8 .cc) (withOps 127 0 0 0) ∧
    invalidArgument (.ugenU8 .cc) (withOps 256 0 0 0) ∧ ¬invalidArgument (.ugenU8 .cc) (withOps 255 0 0 0) ∧
    invalidArgument (.perm .cc) (withOps 0x8000000000000000 0 0 0) ∧ ¬invalidArgument (.perm .cc) (withOps 0 0 0 0) ∧
    samplerEntry (.ugenU64 .cas) = some (.unsigned, 64) ∧ (withOps 0 1 2 3).a0 = 0#64 := by
  simp only [invalidArgument, samplerEntry]
  decide

/-- The edges of rule R193: a range that ends at the end of `M` and one a byte longer; an empty range at the end of `M`
and one beyond it (vectors F22, F23). -/
theorem witness_BoundsExactly :
    State.reset.err = false ∧
    ¬rangeOutside .keyCc (withOps 0x1000 0 0 0) ∧ rangeOutside .keyCc (withOps 0x1001 0 0 0) ∧
    rangeOutside .xorCas (withOps 0 16 0xFF1 0) ∧ ¬rangeOutside .xorCas (withOps 0 16 0xFF0 0) ∧
    rangeOutside (.perm .cc) (withOps 513 0 0 0) ∧ ¬rangeOutside (.perm .cc) (withOps 512 0 0 0) ∧
    ¬invalidArgument (.perm .cc) (withOps 513 0 0 0) ∧
    rangeOutside (.shuf .cc) (withOps 0 0x8000000000000000 0 2) ∧ ¬rangeOutside (.shuf .cc) (withOps 0 64 0 64) := by
  simp only [rangeOutside, invalidArgument]
  decide

theorem witness_FaultsArePrecise :
    ∃ t : State, State.reset.err = false ∧ exec (.ubelowS .cc) State.reset = .next t ∧ t.err = true :=
  ⟨_, rfl, rfl, rfl⟩

/-- A key that ends at the end of `M`, and the empty key there. -/
theorem witness_KeyCcKeysTheLane :
    (withOps 0xFF7 9 0 0).a0.toNat + (withOps 0xFF7 9 0 0).a1.toNat ≤ (withOps 0xFF7 9 0 0).cfg.memBytes ∧
    (withOps 0x1000 0 0 0).a0.toNat + (withOps 0x1000 0 0 0).a1.toNat ≤ (withOps 0x1000 0 0 0).cfg.memBytes := by decide

theorem witness_KeyCasKeysTheLanesInChain :
    (withOps 0 0x1000 0 0).a0.toNat + (withOps 0 0x1000 0 0).a1.toNat ≤ (withOps 0 0x1000 0 0).cfg.memBytes := by decide

theorem witness_CascadePositionsAfterKeying :
    (withOps 0x100 9 0 0).a0.toNat + (withOps 0x100 9 0 0).a1.toNat ≤ (withOps 0x100 9 0 0).cfg.memBytes := by decide

theorem witness_EmptyKeyMakesEqualLanes :
    (withOps 0x1000 0 0 0).a1 = 0#64 ∧ (withOps 0x1000 0 0 0).a0.toNat ≤ (withOps 0x1000 0 0 0).cfg.memBytes := by decide

/-- The same key in two places, in states that differ. -/
theorem witness_KeyingForgetsThePast :
    ∃ s s' : State, s.a0.toNat + s.a1.toNat ≤ s.cfg.memBytes ∧ s'.a0.toNat + s'.a1.toNat ≤ s'.cfg.memBytes ∧
      s'.mem.readList s'.a0.toNat s'.a1.toNat = s.mem.readList s.a0.toNat s.a1.toNat ∧ s.a0 ≠ s'.a0 ∧ s.mem ≠ s'.mem :=
  ⟨{ withOps 0xFFF 1 0 0 with mem := edgeMem }, { withOps 0 1 5 0 with mem := [(0, 0x5A)] }, by decide, by decide,
    by decide, by decide, by decide⟩

/-- Ranges that meet, the destination above the source and at the end of `M`. -/
theorem witness_XorWritesKeystreamXor :
    ∃ s : State, Memory.wf s.mem ∧ s.a0.toNat + s.a1.toNat ≤ s.cfg.memBytes ∧
      s.a2.toNat + s.a1.toNat ≤ s.cfg.memBytes ∧ s.a0.toNat < s.a2.toNat ∧ s.a2.toNat ≤ s.a0.toNat + 15 ∧
      15 < s.a1.toNat :=
  ⟨{ withOps 0xFE8 16 0xFF0 0 with mem := edgeMem }, by decide, by decide, by decide, by decide, by decide, by decide⟩

theorem witness_ReadXorsIntoTheBuffer :
    ∃ s : State, Memory.wf s.mem ∧ s.a0.toNat + s.a1.toNat ≤ s.cfg.memBytes ∧ 3 < s.a1.toNat :=
  ⟨{ withOps 0xFFC 4 0 0 with mem := edgeMem }, by decide, by decide, by decide⟩

theorem witness_XorInPlaceIsRead : (withOps 0x200 16 0x200 0).a2 = (withOps 0x200 16 0x200 0).a0 := rfl

/-- Vector X2's split, and the split with an empty first part. -/
theorem witness_XorStreamsOverConsecutiveRanges :
    State.reset.cfg.Valid ∧ (withOps 0xFF0 16 0 0).a1.toNat = 5 + 11 ∧ (withOps 0xFF0 16 0 0).a1.toNat = 0 + 16 ∧
    (withOps 0xFF0 16 0 0).a0.toNat + (withOps 0xFF0 16 0 0).a1.toNat ≤ (withOps 0xFF0 16 0 0).cfg.memBytes ∧
    (withOps 0xFF0 16 0 0).a2.toNat + (withOps 0xFF0 16 0 0).a1.toNat ≤ (withOps 0xFF0 16 0 0).cfg.memBytes := by decide

/-- The addresses of program P2, and disjoint ranges that touch. -/
theorem witness_DecryptionRestoresThePlaintext :
    Memory.wf State.reset.mem ∧ 0x100 + 9 ≤ State.reset.cfg.memBytes ∧ 0x300 + 13 ≤ State.reset.cfg.memBytes ∧
    0x340 + 13 ≤ State.reset.cfg.memBytes ∧ EqualOrDisjoint 0x300 0x340 13 ∧ EqualOrDisjoint 0x340 0x340 13 ∧
    (0x100 + 9 ≤ 0x340 ∨ 0x340 + 13 ≤ 0x100) ∧ EqualOrDisjoint 0x300 0x30D 13 := by decide

/-- The all-zero lane after two steps, whose draws are 3, 4, 5: for `max = 3` the third candidate is the first
accepted. -/
def twoSteps : Source := (Source.cc Lane.zero).after 2

theorem witness_UniformBelowReturnsFirstAccepted : 1 ≤ 3 ∧ FirstAccepted twoSteps 3 2 := by
  unfold FirstAccepted
  decide +kernel

theorem witness_UniformBelowNeverEndsExactly : (1 ≤ 1) ∧ (1 ≤ 2 ^ 64) := by decide

theorem witness_UniformBelowIsBelowMax :
    0 < 3 ∧ ∃ v src', uniformBelow twoSteps 3 = some (v, src') := by
  have h : (uniformBelow twoSteps 3).isSome = true := by decide +kernel
  obtain ⟨r, hr⟩ := Option.isSome_iff_exists.mp h
  exact ⟨by decide, r.1, r.2, hr⟩

theorem witness_MaskingVariantsAgree : 2 ≤ 2 ∧ 2 ≤ 2 ^ 64 := by decide

theorem witness_DrawSizeFitsMax : 2 ≤ 2 ∧ 2 ≤ 257 := by decide

/-- The least operand, and the greatest `I8`, at the signed entry point and at an unsigned one of the same width. -/
theorem witness_IntegerCommandsReturnFirstAccepted :
    samplerEntry (.ugenI8 .cc) = some (.signed, 8) ∧ unitOf (.ugenI8 .cc) = .cc ∧
    1 ≤ (withOps 127 0 0 0).a0.toNat ∧ (withOps 127 0 0 0).a0.toNat ≤ typeMax .signed 8 ∧
    FirstAccepted ((withOps 127 0 0 0).source .cc) (withOps 127 0 0 0).a0.toNat 0 ∧
    1 ≤ (withOps 1 0 0 0).a0.toNat ∧ (withOps 1 0 0 0).a0.toNat ≤ typeMax .signed 8 ∧
    FirstAccepted ((withOps 1 0 0 0).source .cc) (withOps 1 0 0 0).a0.toNat 0 := by
  unfold FirstAccepted
  decide +kernel

theorem witness_IntegerCommandsHangExactly :
    samplerEntry (.ubelowU .cas) = some (.unsigned, 64) ∧
    1 ≤ (withOps 0xFFFFFFFFFFFFFFFF 0 0 0).a0.toNat ∧
    (withOps 0xFFFFFFFFFFFFFFFF 0 0 0).a0.toNat ≤ typeMax .unsigned 64 := by decide

theorem witness_IntegerCommandsAgree :
    samplerEntry (.ugenI8 .cc) = some (.signed, 8) ∧ samplerEntry (.ubelowU .cc) = some (.unsigned, 64) ∧
    unitOf (.ugenI8 .cc) = unitOf (.ubelowU .cc) ∧ 1 ≤ (withOps 127 0 0 0).a0.toNat ∧
    (withOps 127 0 0 0).a0.toNat ≤ typeMax .signed 8 ∧ (withOps 127 0 0 0).a0.toNat ≤ typeMax .unsigned 64 := by decide

/-- A permutation of three numbers drawn from the all-zero cascade. -/
theorem witness_PermutationIsABijection :
    ∃ r src', permutation (.cas Cascade.zero) 3 = some (r, src') := by
  have h : (permutation (.cas Cascade.zero) 3).isSome = true := by decide +kernel
  obtain ⟨r, hr⟩ := Option.isSome_iff_exists.mp h
  exact ⟨r.1, r.2, hr⟩

theorem witness_ShuffleKeepsTheElements :
    ∃ r src', shuffle (.cc Lane.zero) ["a", "b", "c"] = some (r, src') := by
  have h : (shuffle (.cc Lane.zero) ["a", "b", "c"]).isSome = true := by decide +kernel
  obtain ⟨r, hr⟩ := Option.isSome_iff_exists.mp h
  exact ⟨r.1, r.2, hr⟩

/-- Three entries that end at the end of `M`. -/
theorem witness_PermWritesThePermutation :
    ∃ r src', Memory.wf (withOps 3 0 0xFE8 0).mem ∧ 0 ≤ sgn64 (withOps 3 0 0xFE8 0).a0 ∧
      (withOps 3 0 0xFE8 0).a2.toNat + 8 * (withOps 3 0 0xFE8 0).a0.toNat ≤ (withOps 3 0 0xFE8 0).cfg.memBytes ∧
      permutation ((withOps 3 0 0xFE8 0).source .cas) (withOps 3 0 0xFE8 0).a0.toNat = some (r, src') := by
  have h : (permutation ((withOps 3 0 0xFE8 0).source .cas) (withOps 3 0 0xFE8 0).a0.toNat).isSome = true := by
    decide +kernel
  obtain ⟨r, hr⟩ := Option.isSome_iff_exists.mp h
  exact ⟨r.1, r.2, by decide, by decide, by decide, hr⟩

/-- The operands of `test_shuf`: disjoint ranges. -/
theorem witness_ShufShufflesTheElements :
    ∃ r src', Memory.wf (withOps 0x40 3 0x46 2).mem ∧
      (withOps 0x40 3 0x46 2).a0.toNat + (withOps 0x40 3 0x46 2).a1.toNat * (withOps 0x40 3 0x46 2).a3.toNat ≤
        (withOps 0x40 3 0x46 2).cfg.memBytes ∧
      (withOps 0x40 3 0x46 2).a2.toNat + (withOps 0x40 3 0x46 2).a1.toNat * (withOps 0x40 3 0x46 2).a3.toNat ≤
        (withOps 0x40 3 0x46 2).cfg.memBytes ∧
      EqualOrDisjoint (withOps 0x40 3 0x46 2).a0.toNat (withOps 0x40 3 0x46 2).a2.toNat
        ((withOps 0x40 3 0x46 2).a1.toNat * (withOps 0x40 3 0x46 2).a3.toNat) ∧
      shuffle ((withOps 0x40 3 0x46 2).source .cc)
        (elements (withOps 0x40 3 0x46 2).mem (withOps 0x40 3 0x46 2).a0.toNat (withOps 0x40 3 0x46 2).a1.toNat
          (withOps 0x40 3 0x46 2).a3.toNat) = some (r, src') := by
  have h : (shuffle ((withOps 0x40 3 0x46 2).source .cc)
      (elements (withOps 0x40 3 0x46 2).mem (withOps 0x40 3 0x46 2).a0.toNat (withOps 0x40 3 0x46 2).a1.toNat
        (withOps 0x40 3 0x46 2).a3.toNat)).isSome = true := by decide +kernel
  obtain ⟨r, hr⟩ := Option.isSome_iff_exists.mp h
  exact ⟨r.1, r.2, by decide, by decide, by decide, by decide, hr⟩

/-- Three elements of two bytes whose ranges partly overlap, the destination above the source and at the end of `M`, then
below it. -/
theorem witness_ShufShufflesTheCopyForEveryPlacement :
    ∀ s ∈ [withOps 0xFF9 3 0xFFA 2, withOps 0xFFA 3 0xFF9 2],
      Memory.wf s.mem ∧ s.a0.toNat + s.a1.toNat * s.a3.toNat ≤ s.cfg.memBytes ∧
      s.a2.toNat + s.a1.toNat * s.a3.toNat ≤ s.cfg.memBytes ∧
      ¬EqualOrDisjoint s.a0.toNat s.a2.toNat (s.a1.toNat * s.a3.toNat) ∧
      ∃ r src', shuffle (s.source .cc) ((List.range s.a1.toNat).map fun i => (List.range s.a3.toNat).map fun b =>
        copiedByte s.mem s.a0.toNat s.a2.toNat (i * s.a3.toNat + b)) = some (r, src') := by
  intro s hs
  simp only [List.mem_cons, List.not_mem_nil, or_false] at hs
  have h : (shuffle (s.source .cc) ((List.range s.a1.toNat).map fun i => (List.range s.a3.toNat).map fun b =>
      copiedByte s.mem s.a0.toNat s.a2.toNat (i * s.a3.toNat + b))).isSome = true := by
    rcases hs with rfl | rfl <;> decide +kernel
  obtain ⟨r, hr⟩ := Option.isSome_iff_exists.mp h
  refine ⟨?_, ?_, ?_, ?_, r.1, r.2, hr⟩ <;> rcases hs with rfl | rfl <;> decide

/-- `PERM` and `SHUF` with every range ending at the end of `M`. -/
theorem witness_PermAndShufHangExactly :
    0 ≤ sgn64 (withOps 512 0 0 0).a0 ∧
    (withOps 512 0 0 0).a2.toNat + 8 * (withOps 512 0 0 0).a0.toNat ≤ (withOps 512 0 0 0).cfg.memBytes ∧
    (withOps 0 64 0 64).a0.toNat + (withOps 0 64 0 64).a1.toNat * (withOps 0 64 0 64).a3.toNat ≤
      (withOps 0 64 0 64).cfg.memBytes ∧
    (withOps 0 64 0 64).a2.toNat + (withOps 0 64 0 64).a1.toNat * (withOps 0 64 0 64).a3.toNat ≤
      (withOps 0 64 0 64).cfg.memBytes := by decide

/-- One command of each unit. -/
theorem witness_OtherUnitIsUntouched :
    (∃ t, exec .resetCc State.reset = .next t ∧ unitOf .resetCc = .cc) ∧
    ∃ t, exec .resetCas State.reset = .next t ∧ unitOf .resetCas = .cas := ⟨⟨_, rfl, rfl⟩, _, rfl, rfl⟩

theorem witness_OtherUnitIsIrrelevant : unitOf .xorCc = .cc ∧ unitOf (.perm .cas) = .cas := by decide

theorem witness_CommandsNeverWriteOperands : ∃ t, exec (.stepCc 1) State.reset = .next t := ⟨_, rfl⟩

/-- A command without a result, and a command that faults. -/
theorem witness_OnlyResultsChangeR0 :
    (∃ t, State.reset.err = false ∧ exec .resetCc State.reset = .next t ∧ hasResult .resetCc = false) ∧
    ∃ t : State, State.reset.err = false ∧ exec (.ubelowS .cc) State.reset = .next t ∧ t.err = true :=
  ⟨⟨_, rfl, rfl, rfl⟩, _, rfl, rfl, rfl⟩

/-- The bytes on either side of the range `XOR` stores to. -/
theorem witness_CommandsStoreOnlyInTheirRange :
    ∃ t, Memory.wf (withOps 0 1 0xFFE 0).mem ∧ exec .xorCc (withOps 0 1 0xFFE 0) = .next t ∧
      ¬storesTo .xorCc (withOps 0 1 0xFFE 0) 0xFFD ∧ ¬storesTo .xorCc (withOps 0 1 0xFFE 0) 0xFFF :=
  ⟨_, by decide, rfl, by simp only [storesTo]; decide, by simp only [storesTo]; decide⟩

/-- Two states that differ in the other unit, in `R0` and in the byte after the key. -/
theorem witness_EffectsDependOnlyOnWhatIsRead :
    ∃ s s' : State, Memory.wf s.mem ∧ Memory.wf s'.mem ∧ s'.cfg = s.cfg ∧ (∀ k, s'.operand k = s.operand k) ∧
      s'.source (unitOf .readCc) = s.source (unitOf .readCc) ∧
      (∀ a, readsFrom .readCc s a → s'.mem.read a = s.mem.read a) ∧ s.mem ≠ s'.mem ∧ s.r0 ≠ s'.r0 ∧
      s.err = false ∧ s'.err = false ∧ ¬invalidArgument .readCc s ∧ ¬rangeOutside .readCc s := by
  refine ⟨withOps 0xFFE 1 0 0, { withOps 0xFFE 1 0 0 with mem := edgeMem, r0 := 9 }, by decide, by decide, rfl,
    fun k => by cases k <;> rfl, rfl, ?_, by decide, by decide, rfl, rfl, by simp [invalidArgument, samplerEntry],
    by simp only [rangeOutside]; decide⟩
  intro a h
  obtain rfl : a = 0xFFE := by
    have h' : 0xFFE ≤ a ∧ a < 0xFFE + 1 := h
    omega
  decide

theorem witness_StepKeepsTheInvariant :
    ∃ s t : State, s.Inv ∧ step s = .next t := by
  refine ⟨issued [.writeMem 0xFFF 3], _, ⟨by decide, by decide, by decide, by decide, by decide, by decide⟩, rfl⟩

/-- An access that is no command, and a command that draws nothing. -/
theorem witness_OnlySamplersCanStayBusy :
    ∀ a ∈ [HostAction.readReg .r0, .writeCmd 0x00000001],
      (issued [a]).busy = false ∧ (issued [a]).pending = a :: [] ∧
      (∀ w i, a = .writeCmd w → decode w = .ok i → usesSampler i = false) ∧ ∃ t, step (issued [a]) = .next t := by
  intro a ha
  simp only [List.mem_cons, List.not_mem_nil, or_false] at ha
  rcases ha with rfl | rfl
  · exact ⟨rfl, rfl, by simp, _, rfl⟩
  · refine ⟨rfl, rfl, ?_, _, rfl⟩
    intro w i hw hi
    cases hw
    have h : decode 0x00000001#32 = .ok .resetCc := by decide
    cases h.symm.trans hi
    rfl

theorem witness_RunningForEverHoldsForEver :
    ∃ s : State, s.busy = true ∧ (∀ c, .hardReset c ∉ s.pending) :=
  ⟨{ issued [.readReg .status, .readMem 0x1000] with busy := true }, rfl, by simp [issued]⟩

/-! ### The source's vector: some seconds of the kernel -/

/-- Vector S1, the source's own: cursors after keying with "SecretKey", and the first keystream byte (T3). -/
theorem test_key_cc :
    seen (exec .keyCc { withOps 0x100 9 0 0 with
        mem := (Memory.writeList [] 0x100 [0x53, 0x65, 0x63, 0x72, 0x65, 0x74, 0x4B, 0x65, 0x79]) })
      (fun t => (cursors t.cc, (t.cc.coreStep 0).1.toNat, t.r0.toNat)) = some ((9, 203), 140, 0) := by
  decide +kernel

end Sys2Proof.Tests
end

/-! The invariant `State.Inv` is kept by every step: the sampler's range law keeps the stores of `PERM` and `SHUF` inside
their checked ranges, so no command lists an address at or above `MEM_BYTES`; each state operation keeps the invariant;
and a command's answer (`exec_shapes`) and a step (`step_shapes`) are made of those operations. -/

namespace Sys2Proof.Machine

/-! ### The range law of the sampler -/

theorem drawLoop_lt {max bitLen fuel : Nat} {src : Source} {acc : List Byte} {r : Nat × Source}
    (h : drawLoop max bitLen fuel src acc = some r) : r.1 < max := by
  induction fuel generalizing src acc with
  | zero => cases h
  | succ fuel ih =>
    simp only [drawLoop] at h
    split at h
    next hlt =>
      cases h
      exact hlt
    · exact ih h

/-- `42_sampler.md` rule R168. -/
theorem uniformBelow_lt {src : Source} {max : Nat} {r : Nat × Source} (hmax : 0 < max)
    (h : uniformBelow src max = some r) : r.1 < max := by
  rw [uniformBelow] at h
  split at h
  · cases h
    exact hmax
  · exact drawLoop_lt h

/-! ### No command lists an address that does not exist -/

/-- `20_memory.md` rule R55: what a range check that does not fail says. -/
theorem le_of_checkRange {s : State} {a n : Nat} (h : ¬checkRange s a n = false) : a + n ≤ s.cfg.memBytes := by
  simpa [checkRange] using h

/-- The insertion loop of `PERM` on `n` entries writes entries `i` and `j ≤ i` with `i < n` only. -/
theorem permLoop_below {steps i n base k : Nat} {src : Source} {m : Memory} {r : Source × Memory}
    (h : Memory.below k m) (hsteps : steps ≤ n - i) (hk : base + permEntryBytes * n ≤ k)
    (hr : permLoop steps i base src m = some r) : Memory.below k r.2 := by
  induction steps generalizing i src m with
  | zero =>
    cases hr
    exact h
  | succ steps ih =>
    simp only [permLoop] at hr
    split at hr
    · cases hr
    next j src' hdraw =>
      have hj : j < i + 1 := uniformBelow_lt i.succ_pos hdraw
      have entry_le : ∀ e < n, base + permEntryBytes * e + permEntryBytes ≤ k := fun e he => by
        simp only [permEntryBytes] at hk ⊢
        omega
      exact ih (Memory.below_writeBE (Memory.below_writeBE h _ _ _ (entry_le i (by omega))) _ _ _
        (entry_le j (by omega))) (by omega) hr

/-- The swap loop of `SHUF` on `n` elements swaps elements `i` and `j ≤ i` with `i < n` only. -/
theorem shufLoop_below {esz base n i k : Nat} {src : Source} {m : Memory} {r : Source × Memory}
    (h : Memory.below k m) (hi : i ≤ n - 1) (hk : base + n * esz ≤ k)
    (hr : shufLoop esz base i src m = some r) : Memory.below k r.2 := by
  induction i generalizing src m with
  | zero =>
    cases hr
    exact h
  | succ i ih =>
    simp only [shufLoop] at hr
    split at hr
    · cases hr
    next j src' hdraw =>
      have hj : j < i + 2 := uniformBelow_lt (i + 1).succ_pos hdraw
      have element_le : ∀ e < n, base + e * esz + esz ≤ k := fun e he => by
        have := Nat.mul_le_mul_right esz (Nat.succ_le_of_lt he)
        rw [Nat.succ_mul] at this
        omega
      exact ih (swapBytes_below _ _ _ h (element_le _ (by omega)) (element_le _ (by omega))) (by omega) hr

theorem xorOn_below (u : Src) {s : State} (h : Memory.below s.cfg.memBytes s.mem) :
    Memory.below s.cfg.memBytes (xorOn u s).mem := by
  unfold xorOn
  split
  · exact h
  · split
    · exact h
    next hdst => exact xorLoop_below _ _ _ _ h (le_of_checkRange hdst)

theorem readOn_below (u : Src) {s : State} (h : Memory.below s.cfg.memBytes s.mem) :
    Memory.below s.cfg.memBytes (readOn u s).mem := by
  unfold readOn
  split
  · exact h
  next hbuf => exact xorLoop_below _ _ _ _ h (le_of_checkRange hbuf)

@[simp] theorem sampleTo_mem (u : Src) (arg : ArgResult) (s : State) : (sampleTo u arg s).mem = s.mem := by
  unfold sampleTo
  split
  · rfl
  · rfl
  · split
    · rfl
    · simp

/-- An integer command stores nothing. -/
theorem sampleTo_below (u : Src) (arg : ArgResult) {s : State} (h : Memory.below s.cfg.memBytes s.mem) :
    Memory.below s.cfg.memBytes (sampleTo u arg s).mem := by
  rwa [sampleTo_mem]

theorem execPerm_below (u : Src) {s t : State} (h : Memory.below s.cfg.memBytes s.mem) (ht : execPerm u s = .next t) :
    Memory.below s.cfg.memBytes t.mem := by
  unfold execPerm at ht
  split at ht
  · cases ht
    exact h
  · split at ht
    · cases ht
      exact h
    next hdst =>
      have hrange := le_of_checkRange hdst
      split at ht
      · cases ht
        exact h
      next hloop =>
        cases ht
        exact permLoop_below (zeroFill_below _ _ h hrange) le_rfl hrange hloop

theorem execShuf_below (u : Src) {s t : State} (h : Memory.below s.cfg.memBytes s.mem) (ht : execShuf u s = .next t) :
    Memory.below s.cfg.memBytes t.mem := by
  unfold execShuf at ht
  split at ht
  · cases ht
    exact h
  · split at ht
    · cases ht
      exact h
    next hdst =>
      have hrange := le_of_checkRange hdst
      split at ht
      · cases ht
        exact h
      next hloop =>
        cases ht
        exact shufLoop_below (copyLoop_below _ _ _ h hrange) le_rfl hrange hloop

/-- `20_memory.md` rules R50, R55: no command stores outside `M`. -/
theorem exec_below {i : Instr} {s t : State} (h : Memory.below s.cfg.memBytes s.mem) (ht : exec i s = .next t) :
    Memory.below s.cfg.memBytes t.mem := by
  cases i with
  | resetCc | resetCas | stepCc _ | stepCas _ =>
    cases ht
    exact h
  | keyCc | keyCas =>
    simp only [exec, execKeyCc, execKeyCas] at ht
    split at ht
    · cases ht
      exact h
    · rwa [← Host.Outcome.next.inj ht, State.complete_mem]
  | xorCc | xorCas =>
    cases ht
    exact xorOn_below _ h
  | readCc | readCas =>
    cases ht
    exact readOn_below _ h
  | ubelowS u | ubelowU u | ugenU8 u | ugenU16 u | ugenU32 u | ugenU64 u | ugenI8 u | ugenI16 u | ugenI32 u | ugenI64 u =>
    cases ht
    exact sampleTo_below u _ h
  | perm u => exact execPerm_below u h ht
  | shuf u => exact execShuf_below u h ht

/-! ### Each state operation keeps the invariant -/

namespace State.Inv

/-- The invariant speaks of the parameter, `M` and `STATUS` only. -/
theorem of_eq {s t : State} (h : s.Inv) (hcfg : t.cfg = s.cfg) (hmem : t.mem = s.mem) (hbusy : t.busy = s.busy)
    (herr : t.err = s.err) (hcode : t.errcode = s.errcode) : t.Inv := by
  obtain ⟨cfgValid, memWf, memBelow, errcodeLegal, errIffCode, notBusyHalted⟩ := h
  constructor <;> simpa only [hcfg, hmem, hbusy, herr, hcode]

variable {s : State} (h : s.Inv)
include h

theorem reply (r : Reply) : (s.reply r).Inv := h.of_eq rfl rfl rfl rfl rfl

theorem setR0 (v : Word64) : (s.setR0 v).Inv := h.of_eq rfl rfl rfl rfl rfl

theorem setOperand (k : OpReg) (v : Word64) : (s.setOperand k v).Inv :=
  h.of_eq (by simp) (by simp) (by simp) (by simp) (by simp)

theorem putSource (src : Source) : (s.putSource src).Inv :=
  h.of_eq (by simp) (by simp) (by simp) (by simp) (by simp)

theorem setMem {m : Memory} (hwf : Memory.wf m) (hbelow : Memory.below s.cfg.memBytes m) : (s.setMem m).Inv :=
  { h with memWf := hwf, memBelow := hbelow }

theorem complete : s.complete.Inv := { h with notBusyHalted := by simp }

theorem hang (herr : s.err = false) : s.hang.Inv := { h with notBusyHalted := by simp [herr] }

/-- Every fault leaves a code of `10_state.md` rule R29 that is not 0. -/
theorem raise (f : Trap) : (s.raise f).Inv :=
  { h with
    errcodeLegal := by cases f <;> simp [Trap.code]
    errIffCode := by cases f <;> simp [Trap.code]
    notBusyHalted := by simp }

theorem hardReset (contents : List Host.Cell) : (hardReset contents s).Inv where
  cfgValid := h.cfgValid
  memWf := (Memory.ofCells_wf_below _ _).1
  memBelow := (Memory.ofCells_wf_below _ _).2
  errcodeLegal := .inl rfl
  errIffCode := by simp
  notBusyHalted := by simp

end State.Inv

/-! ### Commands, accesses and steps keep it -/

@[simp] theorem completed_mem (s : State) (src : Source) (m : Memory) (v : Word64) : (completed s src m v).mem = m := rfl

/-- A command keeps the invariant; it starts only while `ERR` is 0, so that one that never ends leaves no halted block
busy. -/
theorem exec_inv {i : Instr} {s t : State} (h : s.Inv) (herr : s.err = false) (ht : exec i s = .next t) : t.Inv := by
  obtain ⟨t', ht', hshape⟩ := exec_shapes i s
  obtain rfl : t' = t := Host.Outcome.next.inj (ht'.symm.trans ht)
  have hbelow := exec_below h.memBelow ht
  cases hshape with
  | invalidArgument => exact h.raise _
  | bounds => exact h.raise _
  | hang => exact h.hang herr
  | completed src m v _ hm =>
    exact (((h.putSource src).setMem (hm h.memWf) (by simpa using hbelow)).setR0 v).complete

theorem writeCmd_inv {w : CmdWord} {s t : State} (h : s.Inv) (ht : writeCmd w s = .next t) : t.Inv := by
  unfold writeCmd at ht
  split at ht
  · cases ht
    exact h
  next hidle =>
    split at ht
    · cases ht
      exact h.raise _
    · exact exec_inv h (by simpa using hidle) ht

theorem perform_inv {a : HostAction} {s t : State} (h : s.Inv) (ht : perform a s = .next t) : t.Inv := by
  cases a with
  | readReg _ | readWindow _ _ =>
    cases ht
    exact h.reply _
  | writeStatus _ | writeR0 _ | writeReserved _ =>
    cases ht
    exact h
  | writeOperand k v =>
    cases ht
    exact h.setOperand k v
  | hardReset contents =>
    cases ht
    exact h.hardReset contents
  | writeCmd w => exact writeCmd_inv h ht
  | readMem addr =>
    simp only [perform] at ht
    split at ht
    · cases ht
      exact h.reply _
    · cases ht
  | writeMem addr b =>
    simp only [perform] at ht
    split at ht
    next haddr =>
      cases ht
      exact h.setMem (Memory.wf_write h.memWf _ _) (Memory.below_write h.memBelow haddr _)
    · cases ht

theorem step_inv {s t : State} (h : s.Inv) (ht : step s = .next t) : t.Inv := by
  obtain ⟨_, hstay⟩ | ⟨a, rest, _, hperform⟩ := step_shapes s
  · obtain rfl := Host.Outcome.next.inj (hstay.symm.trans ht)
    exact h
  · have hrest : ({ s with pending := rest } : State).Inv := h.of_eq rfl rfl rfl rfl rfl
    exact perform_inv hrest (hperform.symm.trans ht)

/-- Settles O55: a step performs one access or nothing, and every access keeps the invariant. -/
theorem stepKeepsTheInvariant : Obligations.StepKeepsTheInvariant := by
  unfold Obligations.StepKeepsTheInvariant
  intro s t h ht
  exact step_inv h ht

end Sys2Proof.Machine

/-! What a command may change of the state (`10_state.md`). That it keeps to its unit and writes no input is read off the
shapes of its answer (`exec_shapes`); that it writes `R0` only as a result and stays busy only in the sampler needs the
commands themselves; that it does not read the other unit is a commuting law, one operation at a time. After these stand the
host's accesses while no command runs, the state window, and the block after reset. -/

namespace Sys2Proof.Machine

/-! ### What each shape of an answer changes -/

@[simp] theorem completed_r0 (s : State) (src : Source) (m : Memory) (v : Word64) : (completed s src m v).r0 = v := rfl

@[simp] theorem completed_err (s : State) (src : Source) (m : Memory) (v : Word64) :
    (completed s src m v).err = s.err := by
  simp [completed]

/-- States whose lanes are equal have equal unit contents. -/
theorem State.source_congr {s t : State} (hcc : t.cc = s.cc) (hcas : t.cas = s.cas) (u : Src) :
    t.source u = s.source u := by
  cases u with
  | cc => exact congrArg Source.cc hcc
  | cas => exact congrArg Source.cas hcas

@[simp] theorem completed_source (s : State) (src : Source) (m : Memory) (v : Word64) (u : Src) :
    (completed s src m v).source u = (s.putSource src).source u := State.source_congr rfl rfl u

/-- `10_state.md` rule R24: an answer leaves the other unit as it was. -/
theorem Shape.source_of_ne {u u' : Src} {s t : State} (h : Shape u s t) (hu : u' ≠ u) : t.source u' = s.source u' := by
  cases h with
  | invalidArgument | bounds | hang => exact State.source_congr rfl rfl u'
  | completed src m v hsrc _ =>
    rw [completed_source]
    exact State.source_putSource_of_ne s src u' (hsrc ▸ hu)

/-- The operand registers are read field by field. -/
theorem SameInputs.of_eq {s t : State} (h0 : t.a0 = s.a0) (h1 : t.a1 = s.a1) (h2 : t.a2 = s.a2) (h3 : t.a3 = s.a3)
    (hcfg : t.cfg = s.cfg) (hpending : t.pending = s.pending) (hreplies : t.replies = s.replies) : SameInputs s t := by
  refine ⟨fun k => ?_, hcfg, hpending, hreplies⟩
  cases k with
  | a0 => exact h0
  | a1 => exact h1
  | a2 => exact h2
  | a3 => exact h3

theorem completed_sameInputs (s : State) (src : Source) (m : Memory) (v : Word64) :
    SameInputs s (completed s src m v) := by
  apply SameInputs.of_eq <;> simp [completed]

/-- `10_state.md` rule R26: an answer has the inputs of the state before. -/
theorem Shape.sameInputs {u : Src} {s t : State} (h : Shape u s t) : SameInputs s t := by
  cases h with
  | invalidArgument | bounds | hang => exact .of_eq rfl rfl rfl rfl rfl rfl rfl
  | completed src m v _ _ => exact completed_sameInputs s src m v

/-- An answer that raises a fault leaves `R0` as it was: one that completes leaves `ERR`. -/
theorem Shape.r0_of_raised {u : Src} {s t : State} (h : Shape u s t) (hs : s.err = false) (ht : t.err = true) :
    t.r0 = s.r0 := by
  cases h with
  | invalidArgument | bounds | hang => rfl
  | completed src m v _ _ =>
    rw [completed_err, hs] at ht
    cases ht

/-- Every answer of a command has a shape on its unit. -/
theorem exec_shape {i : Instr} {s t : State} (h : exec i s = .next t) : Shape (unitOf i) s t := by
  obtain ⟨t', ht', hshape⟩ := exec_shapes i s
  exact Host.Outcome.next.inj (ht'.symm.trans h) ▸ hshape

/-- Settles O48: every shape an answer can have leaves the other unit. -/
theorem otherUnitIsUntouched : Obligations.OtherUnitIsUntouched := by
  unfold Obligations.OtherUnitIsUntouched
  intro i s t h
  have hother : ∀ u, u ≠ unitOf i → t.source u = s.source u := fun u hu => (exec_shape h).source_of_ne hu
  constructor
  · intro hcas
    exact Source.cc.inj (hother .cc (by simp [hcas]))
  · intro hcc
    exact Source.cas.inj (hother .cas (by simp [hcc]))

/-- Settles O50: every shape an answer can have leaves the inputs. -/
theorem commandsNeverWriteOperands : Obligations.CommandsNeverWriteOperands := by
  unfold Obligations.CommandsNeverWriteOperands
  intro i s t h
  exact (exec_shape h).sameInputs

/-! ### `R0` and `BUSY` after the commands without a result and outside the sampler -/

@[simp] theorem xorOn_r0 (u : Src) (s : State) : (xorOn u s).r0 = s.r0 := by
  unfold xorOn
  split
  · rfl
  · split
    · rfl
    · simp

@[simp] theorem xorOn_busy (u : Src) (s : State) : (xorOn u s).busy = false := by
  unfold xorOn
  split
  · rfl
  · split <;> rfl

@[simp] theorem readOn_busy (u : Src) (s : State) : (readOn u s).busy = false := by
  unfold readOn
  split <;> rfl

theorem execPerm_r0 {u : Src} {s t : State} (h : execPerm u s = .next t) : t.r0 = s.r0 := by
  unfold execPerm at h
  split at h
  · cases h
    rfl
  · split at h
    · cases h
      rfl
    · split at h
      · cases h
        rfl
      · cases h
        simp

theorem execShuf_r0 {u : Src} {s t : State} (h : execShuf u s = .next t) : t.r0 = s.r0 := by
  unfold execShuf at h
  split at h
  · cases h
    rfl
  · split at h
    · cases h
      rfl
    · split at h
      · cases h
        rfl
      · cases h
        simp

/-- `10_state.md` rule R27: a command without a result leaves `R0` as it was. -/
theorem exec_r0_of_no_result {i : Instr} {s t : State} (hi : hasResult i = false) (h : exec i s = .next t) :
    t.r0 = s.r0 := by
  cases i with
  | resetCc | resetCas =>
    cases h
    rfl
  | keyCc | keyCas =>
    simp only [exec, execKeyCc, execKeyCas] at h
    split at h
    · cases h
      rfl
    · rw [← Host.Outcome.next.inj h, State.complete_r0]
  | xorCc | xorCas =>
    cases h
    exact xorOn_r0 _ s
  | perm u => exact execPerm_r0 h
  | shuf u => exact execShuf_r0 h
  | stepCc _ | stepCas _ | readCc | readCas
  | ubelowS _ | ubelowU _ | ugenU8 _ | ugenU16 _ | ugenU32 _ | ugenU64 _ | ugenI8 _ | ugenI16 _ | ugenI32 _ | ugenI64 _ =>
    cases hi

/-- `70_reset_and_hazards.md` rule R227: a command that draws nothing ends. -/
theorem exec_busy_of_no_sampler {i : Instr} {s t : State} (hi : usesSampler i = false) (h : exec i s = .next t) :
    t.busy = false := by
  cases i with
  | resetCc | resetCas | stepCc _ | stepCas _ =>
    cases h
    rfl
  | keyCc | keyCas =>
    simp only [exec, execKeyCc, execKeyCas] at h
    split at h
    · cases h
      rfl
    · rw [← Host.Outcome.next.inj h, State.complete_busy]
  | xorCc | xorCas =>
    cases h
    exact xorOn_busy _ s
  | readCc | readCas =>
    cases h
    exact readOn_busy _ s
  | ubelowS _ | ubelowU _ | ugenU8 _ | ugenU16 _ | ugenU32 _ | ugenU64 _ | ugenI8 _ | ugenI16 _ | ugenI32 _ | ugenI64 _
  | perm _ | shuf _ =>
    cases hi

/-- Settles O51: a command without a result never writes `R0`, and one that faults has written nothing but `STATUS`. -/
theorem onlyResultsChangeR0 : Obligations.OnlyResultsChangeR0 := by
  unfold Obligations.OnlyResultsChangeR0
  rintro i s t hs h (hnoResult | hfault)
  · exact exec_r0_of_no_result hnoResult h
  · exact (exec_shape h).r0_of_raised hs hfault

/-! ### The other unit is not read: each operation commutes with replacing it -/

section
variable (s : State) (o : Source)

theorem State.complete_putSource : (s.putSource o).complete = s.complete.putSource o := by cases o <;> rfl

theorem State.raise_putSource (f : Trap) : (s.putSource o).raise f = (s.raise f).putSource o := by cases o <;> rfl

theorem State.hang_putSource : (s.putSource o).hang = s.hang.putSource o := by cases o <;> rfl

theorem State.setR0_putSource (v : Word64) : (s.putSource o).setR0 v = (s.setR0 v).putSource o := by cases o <;> rfl

theorem State.setMem_putSource (m : Memory) : (s.putSource o).setMem m = (s.setMem m).putSource o := by cases o <;> rfl

/-- Contents put into different units do not disturb one another. -/
theorem State.putSource_comm {src : Source} (h : src.unit ≠ o.unit) :
    (s.putSource o).putSource src = (s.putSource src).putSource o := by
  cases src with
  | cc l =>
    cases o with
    | cc l' => exact absurd rfl h
    | cas c => rfl
  | cas c =>
    cases o with
    | cc l => rfl
    | cas c' => exact absurd rfl h

@[simp] theorem checkRange_putSource (a n : Nat) : checkRange (s.putSource o) a n = checkRange s a n := by
  simp [checkRange]

variable {o} {u : Src} (hu : u ≠ o.unit)
include hu

theorem xorOn_putSource : xorOn u (s.putSource o) = (xorOn u s).putSource o := by
  have hsource := State.source_putSource_of_ne s o u hu
  simp only [xorOn, checkRange_putSource, State.putSource_a0, State.putSource_a1, State.putSource_a2,
    State.putSource_mem, hsource]
  split
  · exact s.raise_putSource o .bounds
  · split
    · exact s.raise_putSource o .bounds
    · rw [State.putSource_comm s o (by simpa using hu), State.setMem_putSource, State.complete_putSource]

theorem readOn_putSource : readOn u (s.putSource o) = (readOn u s).putSource o := by
  have hsource := State.source_putSource_of_ne s o u hu
  simp only [readOn, checkRange_putSource, State.putSource_a0, State.putSource_a1, State.putSource_mem, hsource]
  split
  · exact s.raise_putSource o .bounds
  · rw [State.putSource_comm s o (by simpa using hu), State.setMem_putSource, State.setR0_putSource,
      State.complete_putSource]

theorem sampleTo_putSource (check : Word64 → ArgResult) :
    sampleTo u (check (s.putSource o).a0) (s.putSource o) = (sampleTo u (check s.a0) s).putSource o := by
  rw [State.putSource_a0]
  cases check s.a0 with
  | invalid => exact s.raise_putSource o _
  | degenerate => simp only [sampleTo, State.setR0_putSource, State.complete_putSource]
  | valid max =>
    simp only [sampleTo, State.source_putSource_of_ne s o u hu]
    cases hdraw : uniformBelow (s.source u) max with
    | none => exact s.hang_putSource o
    | some r =>
      have hr : r.2.unit = u := by simpa using uniformBelow_unit hdraw
      simp only [State.putSource_comm s o (hr ▸ hu), State.setR0_putSource, State.complete_putSource]

/-- What `PERM` and `SHUF` answer when their last draw has ended, on a state whose other unit is replaced. -/
theorem setMem_complete_putSource {src : Source} (hsrc : src.unit = u) (m : Memory) :
    (((s.putSource o).putSource src).setMem m).complete = (((s.putSource src).setMem m).complete).putSource o := by
  rw [State.putSource_comm s o (hsrc ▸ hu), State.setMem_putSource, State.complete_putSource]

theorem execPerm_putSource :
    ∃ t, execPerm u s = .next t ∧ execPerm u (s.putSource o) = .next (t.putSource o) := by
  simp only [execPerm, checkRange_putSource, State.putSource_a0, State.putSource_a2, State.putSource_mem,
    State.source_putSource_of_ne s o u hu]
  split
  · exact ⟨_, rfl, congrArg Host.Outcome.next (s.raise_putSource o _)⟩
  · split
    · exact ⟨_, rfl, congrArg Host.Outcome.next (s.raise_putSource o _)⟩
    · cases hloop : permLoop ((sgn64 s.a0).toNat - 1) 1 s.a2.toNat (s.source u)
        (zeroFill (sgn64 s.a0).toNat s.a2.toNat s.mem) with
      | none => exact ⟨_, rfl, congrArg Host.Outcome.next (s.hang_putSource o)⟩
      | some r =>
        have hr : r.1.unit = u := by simpa using permLoop_unit hloop
        exact ⟨_, rfl, congrArg Host.Outcome.next (setMem_complete_putSource s hu hr r.2)⟩

theorem execShuf_putSource :
    ∃ t, execShuf u s = .next t ∧ execShuf u (s.putSource o) = .next (t.putSource o) := by
  simp only [execShuf, checkRange_putSource, State.putSource_a0, State.putSource_a1, State.putSource_a2,
    State.putSource_a3, State.putSource_mem, State.source_putSource_of_ne s o u hu]
  split
  · exact ⟨_, rfl, congrArg Host.Outcome.next (s.raise_putSource o _)⟩
  · split
    · exact ⟨_, rfl, congrArg Host.Outcome.next (s.raise_putSource o _)⟩
    · cases hloop : shufLoop s.a3.toNat s.a2.toNat (s.a1.toNat - 1) (s.source u)
        (copyLoop (s.a1.toNat * s.a3.toNat) s.a0.toNat s.a2.toNat s.mem) with
      | none => exact ⟨_, rfl, congrArg Host.Outcome.next (s.hang_putSource o)⟩
      | some r =>
        have hr : r.1.unit = u := by simpa using shufLoop_unit hloop
        exact ⟨_, rfl, congrArg Host.Outcome.next (setMem_complete_putSource s hu hr r.2)⟩

end

/-- `10_state.md` rule R24: replacing the contents of the other unit before a command and after it is the same. The keyed
lanes are generalised, since they are the same on both sides and dear to evaluate. -/
theorem exec_putSource (i : Instr) (s : State) (o : Source) (hu : unitOf i ≠ o.unit) :
    ∃ t, exec i s = .next t ∧ exec i (s.putSource o) = .next (t.putSource o) := by
  cases i with
  | resetCc | stepCc _ =>
    cases o with
    | cc l => exact absurd rfl hu
    | cas c => exact ⟨_, rfl, rfl⟩
  | resetCas | stepCas _ =>
    cases o with
    | cc l => exact ⟨_, rfl, rfl⟩
    | cas c => exact absurd rfl hu
  | keyCc =>
    cases o with
    | cc l => exact absurd rfl hu
    | cas c =>
      simp only [exec, execKeyCc, checkRange_putSource, State.putSource_a0, State.putSource_a1, State.putSource_mem,
        State.putSource_cas_cc]
      generalize s.cc.construct _ = keyed
      split
      · exact ⟨_, rfl, rfl⟩
      · exact ⟨_, rfl, rfl⟩
  | keyCas =>
    cases o with
    | cas c => exact absurd rfl hu
    | cc l =>
      simp only [exec, execKeyCas, checkRange_putSource, State.putSource_a0, State.putSource_a1, State.putSource_mem,
        State.putSource_cc_cas]
      generalize s.cas.construct _ = keyed
      split
      · exact ⟨_, rfl, rfl⟩
      · exact ⟨_, rfl, rfl⟩
  | xorCc | xorCas => exact ⟨_, rfl, congrArg Host.Outcome.next (xorOn_putSource s hu)⟩
  | readCc | readCas => exact ⟨_, rfl, congrArg Host.Outcome.next (readOn_putSource s hu)⟩
  | ubelowS u | ubelowU u | ugenU8 u | ugenU16 u | ugenU32 u | ugenU64 u | ugenI8 u | ugenI16 u | ugenI32 u | ugenI64 u =>
    exact ⟨_, rfl, congrArg Host.Outcome.next (sampleTo_putSource s hu (argCheck _ _))⟩
  | perm u => exact execPerm_putSource s hu
  | shuf u => exact execShuf_putSource s hu

/-- Settles O49: replacing a unit's contents is putting a source back into it. -/
theorem otherUnitIsIrrelevant : Obligations.OtherUnitIsIrrelevant := by
  unfold Obligations.OtherUnitIsIrrelevant
  intro i s
  constructor
  · intro hcas l
    exact exec_putSource i s (.cc l) (by simp [hcas])
  · intro hcc c
    exact exec_putSource i s (.cas c) (by simp [hcc])

/-! ### The accesses of a block that runs no command -/

/-- `20_memory.md` rule R59: with `BUSY` 0 a step performs the access issued first. -/
theorem step_of_not_busy {s : State} {a : HostAction} {rest : List HostAction} (hbusy : s.busy = false)
    (hpending : s.pending = a :: rest) : step s = perform a { s with pending := rest } := by
  rw [step, hostStep, hbusy, hpending, takeNext_idle]

theorem writeCmd_of_halted (w : CmdWord) {s : State} (h : s.err = true) : writeCmd w s = .next s := by
  rw [writeCmd, if_pos h]

/-- A word that is no sampler command leaves `BUSY` 0: it is ignored, raises a fault, or runs to its end. -/
theorem writeCmd_busy {w : CmdWord} {s t : State} (hbusy : s.busy = false)
    (hw : ∀ i, decode w = .ok i → usesSampler i = false) (h : writeCmd w s = .next t) : t.busy = false := by
  unfold writeCmd at h
  split at h
  · cases h
    exact hbusy
  · split at h
    · cases h
      rfl
    next i hdecode => exact exec_busy_of_no_sampler (hw i hdecode) h

theorem perform_busy {a : HostAction} {s t : State} (hbusy : s.busy = false)
    (ha : ∀ w i, a = .writeCmd w → decode w = .ok i → usesSampler i = false) (h : perform a s = .next t) :
    t.busy = false := by
  cases a with
  | readReg _ | readWindow _ _ | writeStatus _ | writeR0 _ | writeReserved _ =>
    cases h
    exact hbusy
  | writeOperand k v =>
    cases h
    rwa [State.setOperand_busy]
  | hardReset contents =>
    cases h
    rfl
  | writeCmd w => exact writeCmd_busy hbusy (fun i => ha w i rfl) h
  | readMem addr | writeMem addr b =>
    simp only [perform] at h
    split at h
    · cases h
      exact hbusy
    · cases h

/-- Settles O56: the access performed is the first issued, and no access but a sampler command sets `BUSY`. -/
theorem onlySamplersCanStayBusy : Obligations.OnlySamplersCanStayBusy := by
  unfold Obligations.OnlySamplersCanStayBusy
  intro s t a rest hbusy hpending ha h
  rw [step_of_not_busy hbusy hpending] at h
  exact perform_busy (s := { s with pending := rest }) hbusy ha h

/-- Settles O10: the write is the access performed, and while halted it does nothing. -/
theorem commandIsIgnoredWhileHalted : Obligations.CommandIsIgnoredWhileHalted := by
  unfold Obligations.CommandIsIgnoredWhileHalted
  intro s w rest hbusy herr hpending
  rw [step_of_not_busy hbusy hpending]
  exact writeCmd_of_halted w (s := { s with pending := rest }) herr

/-! ### The state window -/

theorem stateRead_entry (s : State) (l : LaneName) {x : Fin 258} (hx : x.val < 256) :
    stateRead s l x = (windowLane s l).S[x.val] := by
  simp [stateRead, hx, Lane.entry, Nat.mod_eq_of_lt hx]

theorem stateRead_p (s : State) (l : LaneName) {x : Fin 258} (hx : x.val = 256) :
    stateRead s l x = (windowLane s l).p := by
  simp [stateRead, hx]

theorem stateRead_q (s : State) (l : LaneName) {x : Fin 258} (hx : x.val = 257) :
    stateRead s l x = (windowLane s l).q := by
  simp [stateRead, hx]

/-- Settles O14: the byte returned is `stateRead`'s, on the lane of the name. -/
theorem stateWindowReadsTheLane : Obligations.StateWindowReadsTheLane := by
  unfold Obligations.StateWindowReadsTheLane
  intro s l x rest hbusy hpending L
  have hlane : L = windowLane s l := by
    cases l with
    | cc => rfl
    | cas i => fin_cases i <;> rfl
  rw [hlane]
  exact ⟨stateRead s l x, step_of_not_busy hbusy hpending, stateRead_entry s l, stateRead_p s l, stateRead_q s l⟩

/-! ### Reset -/

@[simp] theorem Lane.zero_entry (j : Byte) : Lane.zero.entry j = 0#8 := Lane.zero.clear_entry j

/-- `10_state.md` rule R29. -/
theorem statusWord_of_clear {s : State} (hbusy : s.busy = false) (herr : s.err = false) (hcode : s.errcode = 0#4) :
    statusWord s = 0#32 := by
  rw [statusWord, hbusy, herr, hcode]
  rfl

/-- Settles O1: the five lanes of a reset block are the all-zero lane. -/
theorem afterResetEverythingIsZero : Obligations.AfterResetEverythingIsZero := by
  unfold Obligations.AfterResetEverythingIsZero
  refine ⟨⟨Config.initial, [], rfl⟩, fun cfg mem => ⟨fun L hL => ?_, rfl, rfl, rfl, rfl, rfl,
    statusWord_of_clear rfl rfl rfl, rfl⟩⟩
  obtain rfl : L = Lane.zero := by simpa [Cascade.zero] using hL
  exact ⟨Lane.zero_entry, rfl, rfl⟩

/-- A reset block is sound when its parameter is legal and its contents are canonical and inside its size. -/
theorem State.Inv.afterReset {cfg : Config} {mem : Memory} (hcfg : cfg.Valid) (hwf : Memory.wf mem)
    (hbelow : Memory.below cfg.memBytes mem) : (State.afterReset cfg mem).Inv where
  cfgValid := hcfg
  memWf := hwf
  memBelow := hbelow
  errcodeLegal := .inl rfl
  errIffCode := by simp
  notBusyHalted := by simp

/-- Settles O54: `State.reset` is a reset block of a legal size with empty contents. -/
theorem resetIsSound : Obligations.ResetIsSound := by
  unfold Obligations.ResetIsSound
  exact .afterReset (by decide) Memory.wf_nil (by simp)

end Sys2Proof.Machine

/-! The work memory as the host and the commands use it (`20_memory.md`): the accesses of the host, which of them a running
command holds and which stop the model; `XOR` in place; and `SHUF` as the function on lists, for every placement of its
ranges: the swaps on `M` are the swaps of the list of elements that stand there. -/

namespace Sys2Proof.Machine

/-! ### The host's accesses to the bytes of `M` -/

theorem perform_readMem {s : State} {a : Nat} (ha : a < s.cfg.memBytes) :
    perform (.readMem a) s = .next (s.reply (.mem a (s.mem.read a))) := if_pos ha

theorem perform_writeMem {s : State} {a : Nat} (b : Byte) (ha : a < s.cfg.memBytes) :
    perform (.writeMem a b) s = .next (s.setMem (s.mem.write a b)) := if_pos ha

theorem perform_readMem_absent {s : State} {a : Nat} (ha : s.cfg.memBytes ≤ a) :
    perform (.readMem a) s = .fault (.absentByte a) := if_neg (Nat.not_lt.2 ha)

theorem perform_writeMem_absent {s : State} {a : Nat} (b : Byte) (ha : s.cfg.memBytes ≤ a) :
    perform (.writeMem a b) s = .fault (.absentByte a) := if_neg (Nat.not_lt.2 ha)

/-- A run goes on from the state its first step answers. -/
theorem run_succ_of_step {k : Nat} {s t : State} (h : step s = .next t) :
    Host.Core.run Sys2Proof.core (k + 1) s = Host.Core.run Sys2Proof.core k t := by
  simp only [Host.Core.run, show Sys2Proof.core.step s = .next t from h]

/-- Settles O15: the step performs the access, and a byte reads as what was last written to it. -/
theorem hostReadsBackWhatItWrote : Obligations.HostReadsBackWhatItWrote := by
  unfold Obligations.HostReadsBackWhatItWrote
  intro s a rest hbusy ha
  refine ⟨fun b hpending hwf => ?_, fun hpending => ?_, fun b x hpending hwf hx => ?_⟩
  · exact ⟨s.mem.write a b, (step_of_not_busy hbusy hpending).trans (perform_writeMem b ha), Memory.wf_write hwf a b,
      Memory.read_write hwf a b⟩
  · exact (step_of_not_busy hbusy hpending).trans (perform_readMem ha)
  · have hwrite := (step_of_not_busy hbusy hpending).trans (perform_writeMem b ha)
    have hread := (step_of_not_busy (s := { s with pending := .readMem x :: rest, mem := s.mem.write a b }) hbusy
      rfl).trans (perform_readMem hx)
    refine ⟨_, (run_succ_of_step hwrite).trans (run_succ_of_step hread), ?_, rfl⟩
    rw [State.reply_replies, Memory.read_write hwf]

/-! ### Which accesses pass a running command -/

/-- `20_memory.md` rule R63, `70_reset_and_hazards.md` rule R227. -/
theorem passesBusy_eq_false_iff {a : HostAction} :
    passesBusy a = false ↔ a ≠ .readReg .status ∧ ∀ c, a ≠ .hardReset c := by
  cases a with
  | readReg r => cases r <;> simp [passesBusy]
  | _ => simp [passesBusy]

/-- While a command runs, accesses that do not pass stay in front of those that wait behind them. -/
theorem takeNext_append_of_held {held : List HostAction} (hheld : ∀ a ∈ held, passesBusy a = false)
    (q : List HostAction) :
    takeNext true (held ++ q) = (takeNext true q).map fun r => (r.1, held ++ r.2) := by
  induction held with
  | nil => simp
  | cons a held ih =>
    have ha : passesBusy a = false := hheld a List.mem_cons_self
    rw [List.cons_append, takeNext, if_neg (by simp [ha]), ih fun b hb => hheld b (List.mem_cons_of_mem a hb),
      Option.map_map]
    rfl

/-- An access that does not pass is taken only when no command runs, and then it is the first issued. -/
theorem takeNext_of_not_passes {busy : Bool} {q rest : List HostAction} {a : HostAction} (ha : passesBusy a = false)
    (h : takeNext busy q = some (a, rest)) : busy = false ∧ q = a :: rest := by
  cases busy with
  | true =>
    obtain ⟨hpasses, _⟩ := takeNext_busy h
    rw [ha] at hpasses
    cases hpasses
  | false =>
    cases q with
    | nil => cases h
    | cons b q =>
      rw [takeNext_idle] at h
      cases h
      exact ⟨rfl, rfl⟩

/-- `10_state.md` rule R29: bit 0 of `STATUS` is `BUSY`. -/
theorem statusWord_getLsbD_zero (s : State) : (statusWord s).getLsbD 0 = s.busy :=
  BitVec.getLsbD_append.trans (by simp)

/-- Settles O12: accesses that do not pass are skipped and kept in order, and a read of `STATUS` behind them is taken. -/
theorem busyHoldsAllButStatusReads : Obligations.BusyHoldsAllButStatusReads := by
  unfold Obligations.BusyHoldsAllButStatusReads
  intro s held rest hbusy hheld
  have htake := takeNext_append_of_held fun a ha => passesBusy_eq_false_iff.2 (hheld a ha)
  refine ⟨fun hpending => ?_, fun hpending => ⟨?_, ?_⟩⟩
  · have hnone : takeNext s.busy s.pending = none := by simpa [hbusy, hpending] using htake []
    rw [step, hostStep, hnone]
  · have hread : takeNext s.busy s.pending = some (.readReg .status, held ++ rest) := by
      rw [hbusy, hpending, htake]
      rfl
    rw [step, hostStep, hread]
    rfl
  · rw [statusWord_getLsbD_zero, hbusy]

/-! ### Which accesses stop the model -/

/-- The access reads or writes the byte of `M` at an address. -/
def HostAction.touches (a : HostAction) (addr : Nat) : Prop := a = .readMem addr ∨ ∃ b, a = .writeMem addr b

theorem HostAction.touches.not_passes {a : HostAction} {addr : Nat} (h : a.touches addr) : passesBusy a = false := by
  obtain rfl | ⟨b, rfl⟩ := h <;> rfl

/-- A command word is ignored, raises a fault, or runs a command: each leaves a next state. -/
theorem writeCmd_answers_next (w : CmdWord) (s : State) : ∃ t, writeCmd w s = .next t := by
  unfold writeCmd
  split
  · exact ⟨_, rfl⟩
  · split
    · exact ⟨_, rfl⟩
    next i _ =>
      obtain ⟨t, ht, _⟩ := exec_shapes i s
      exact ⟨t, ht⟩

theorem perform_of_touches_absent {a : HostAction} {addr : Nat} {s : State} (h : a.touches addr)
    (haddr : s.cfg.memBytes ≤ addr) : perform a s = .fault (.absentByte addr) := by
  obtain rfl | ⟨b, rfl⟩ := h
  · exact perform_readMem_absent haddr
  · exact perform_writeMem_absent b haddr

/-- An access leaves a next state unless it touches a byte that does not exist. -/
theorem perform_next_or_absent (a : HostAction) (s : State) :
    (∃ t, perform a s = .next t) ∨ ∃ addr, a.touches addr ∧ s.cfg.memBytes ≤ addr := by
  cases a with
  | readReg _ | writeOperand _ _ | writeStatus _ | writeR0 _ | writeReserved _ | readWindow _ _ | hardReset _ =>
    exact .inl ⟨_, rfl⟩
  | writeCmd w => exact .inl (writeCmd_answers_next w s)
  | readMem addr =>
    obtain haddr | haddr := Nat.lt_or_ge addr s.cfg.memBytes
    · exact .inl ⟨_, perform_readMem haddr⟩
    · exact .inr ⟨addr, .inl rfl, haddr⟩
  | writeMem addr b =>
    obtain haddr | haddr := Nat.lt_or_ge addr s.cfg.memBytes
    · exact .inl ⟨_, perform_writeMem b haddr⟩
    · exact .inr ⟨addr, .inr ⟨b, rfl⟩, haddr⟩

/-- A step leaves a next state, or no command runs and the first access touches a byte that does not exist. -/
theorem step_next_or_absent (s : State) :
    (∃ t, step s = .next t) ∨ ∃ a addr rest, a.touches addr ∧ s.cfg.memBytes ≤ addr ∧ s.busy = false ∧
      s.pending = a :: rest ∧ step s = .fault (.absentByte addr) := by
  obtain ⟨_, hstay⟩ | ⟨a, rest, htake, hperform⟩ := step_shapes s
  · exact .inl ⟨s, hstay⟩
  · rw [hperform]
    refine (perform_next_or_absent a _).imp_right fun ⟨addr, htouches, haddr⟩ => ?_
    obtain ⟨hbusy, hpending⟩ := takeNext_of_not_passes htouches.not_passes htake
    exact ⟨a, addr, rest, htouches, haddr, hbusy, hpending, perform_of_touches_absent htouches haddr⟩

/-- Settles O16: only an access that touches a byte that does not exist answers no next state. -/
theorem stepStopsOnlyOnAbsentBytes : Obligations.StepStopsOnlyOnAbsentBytes := by
  unfold Obligations.StepStopsOnlyOnAbsentBytes
  refine fun s => ⟨fun r h => ?_, fun f => ⟨fun h => ?_, ?_⟩⟩
  · obtain ⟨t, ht⟩ | ⟨_, _, _, _, _, _, _, hfault⟩ := step_next_or_absent s
    · cases ht.symm.trans h
    · cases hfault.symm.trans h
  · obtain ⟨t, ht⟩ | ⟨a, addr, rest, htouches, haddr, hbusy, hpending, hfault⟩ := step_next_or_absent s
    · cases ht.symm.trans h
    · cases hfault.symm.trans h
      refine ⟨addr, rfl, haddr, hbusy, rest, ?_⟩
      rw [hpending]
      simpa [HostAction.touches] using htouches
  · rintro ⟨addr, rfl, haddr, hbusy, rest, hpending | ⟨b, hpending⟩⟩
    · exact (step_of_not_busy hbusy hpending).trans (perform_readMem_absent haddr)
    · exact (step_of_not_busy hbusy hpending).trans (perform_writeMem_absent b haddr)

/-! ### `XOR` in place -/

/-- `40_ciphercore.md` rule R110: with the destination at the source, the second range check of `XOR` is the first again
and its loop is that of `READ`. -/
theorem readOn_eq_xorOn_but_r0 (u : Src) {s : State} (h : s.a2 = s.a0) :
    readOn u s = { xorOn u s with r0 := (readOn u s).r0 } := by
  simp only [readOn, xorOn, h]
  split
  · rfl
  · rfl

/-- Settles O32: on either unit, by the law of `readOn` and `xorOn` in place. -/
theorem xorInPlaceIsRead : Obligations.XorInPlaceIsRead := by
  unfold Obligations.XorInPlaceIsRead
  intro u s h
  cases u with
  | cc => exact ⟨_, _, rfl, rfl, readOn_eq_xorOn_but_r0 .cc h⟩
  | cas => exact ⟨_, _, rfl, rfl, readOn_eq_xorOn_but_r0 .cas h⟩

/-! ### The elements of a sequence in `M` -/

@[simp] theorem length_elements (m : Memory) (base n esz : Nat) : (elements m base n esz).length = n := by
  simp [elements]

@[simp] theorem getElem_elements (m : Memory) (base n esz i : Nat) (h : i < (elements m base n esz).length) :
    (elements m base n esz)[i] = m.readList (base + i * esz) esz := by
  simp [elements]

/-- Byte `b` of element `i` is the byte at its address. -/
theorem getD_elements (m : Memory) (base : Nat) {n esz i b : Nat} (hi : i < n) (hb : b < esz) :
    ((elements m base n esz).getD i []).getD b 0#8 = m.read (base + (i * esz + b)) := by
  have hib : b < (m.readList (base + i * esz) esz).length := by rwa [Memory.length_readList]
  rw [List.getD_eq_getElem (elements m base n esz) _ (by rwa [length_elements]), getElem_elements,
    List.getD_eq_getElem _ _ hib, Memory.getElem_readList, Nat.add_assoc]

/-- Element `i` of `n` lies in the range of them all. -/
theorem element_le {i n : Nat} (esz : Nat) (hi : i < n) : i * esz + esz ≤ n * esz := by
  rw [← Nat.succ_mul]
  exact Nat.mul_le_mul_right esz hi

/-- Two elements of a sequence do not meet. -/
theorem element_disjoint (base esz : Nat) {i j : Nat} (h : i ≠ j) :
    base + i * esz + esz ≤ base + j * esz ∨ base + j * esz + esz ≤ base + i * esz := by
  obtain hij | hij := Nat.lt_or_gt_of_ne h
  · have := element_le esz hij
    omega
  · have := element_le esz hij
    omega

theorem element_equalOrDisjoint (base esz i j : Nat) : EqualOrDisjoint (base + i * esz) (base + j * esz) esz := by
  by_cases h : i = j
  · exact .inl (by rw [h])
  · exact .inr (element_disjoint base esz h)

/-- What the copy of `SHUF` leaves at its destination, for every placement of the two ranges. -/
theorem elements_copyLoop (n esz a d : Nat) {m : Memory} (h : Memory.wf m) :
    elements (copyLoop (n * esz) a d m) d n esz =
      (List.range n).map fun i => (List.range esz).map fun b => copiedByte m a d (i * esz + b) := by
  refine List.ext_getElem (by simp) fun i hi _ => List.ext_getElem (by simp) fun b hb _ => ?_
  have hin : i * esz + b < n * esz := by
    have := element_le esz (show i < n by simpa using hi)
    have : b < esz := by simpa using hb
    omega
  simp [Memory.getElem_readList, Nat.add_assoc, copyLoop_read _ _ _ h hin]

/-! ### The swaps of `SHUF` are those of the list of elements -/

/-- A swap of ranges that are equal or do not meet leaves in each what stood in the other. -/
theorem swapBytes_read {n x y : Nat} {m : Memory} (h : Memory.wf m) (hd : EqualOrDisjoint x y n) {k : Nat}
    (hk : k < n) : (swapBytes n x y m).read (x + k) = m.read (y + k) ∧ (swapBytes n x y m).read (y + k) = m.read (x + k) := by
  induction n generalizing x y m k with
  | zero => omega
  | succ n ih =>
    have hwf := Memory.wf_write (Memory.wf_write h x (m.read y)) y (m.read x)
    have hread : ∀ z, ((m.write x (m.read y)).write y (m.read x)).read z =
        if z = y then m.read x else if z = x then m.read y else m.read z := fun z => by
      rw [Memory.read_write (Memory.wf_write h _ _), Memory.read_write h]
    rw [swapBytes]
    cases k with
    | zero =>
      simp only [Nat.add_zero]
      rw [swapBytes_frame _ _ _ hwf _ (by omega) (by omega),
        swapBytes_frame _ _ _ hwf _ (by omega) (by omega), hread, hread]
      refine ⟨?_, if_pos rfl⟩
      split
      next hxy => rw [hxy]
      · exact if_pos rfl
    | succ k =>
      have hrest := ih hwf (x := x + 1) (y := y + 1) (by omega) (Nat.lt_of_succ_lt_succ hk)
      rw [hread, hread, if_neg (by omega), if_neg (by omega), if_neg (by omega), if_neg (by omega)] at hrest
      rwa [show x + 1 + k = x + (k + 1) by omega, show y + 1 + k = y + (k + 1) by omega] at hrest

theorem swapElements_of_lt {α : Type} {r : List α} {i j : Nat} (hi : i < r.length) (hj : j < r.length) :
    swapElements r i j = (r.set i r[j]).set j r[i] := by
  rw [swapElements, List.getElem?_eq_getElem hi, List.getElem?_eq_getElem hj]

/-- Swapping the bytes of two elements swaps them in the list of elements. -/
theorem elements_swapBytes {base n esz i j : Nat} {m : Memory} (h : Memory.wf m) (hi : i < n) (hj : j < n) :
    elements (swapBytes esz (base + i * esz) (base + j * esz) m) base n esz =
      swapElements (elements m base n esz) i j := by
  have hswap := fun b (hb : b < esz) => swapBytes_read h (element_equalOrDisjoint base esz i j) hb
  rw [swapElements_of_lt (by simpa using hi) (by simpa using hj)]
  refine List.ext_getElem (by simp) fun k hk _ => ?_
  simp only [List.getElem_set, getElem_elements]
  split
  next hjk =>
    subst hjk
    exact Memory.readList_congr fun b hb => (hswap b hb).2
  next hjk =>
    split
    next hik =>
      subst hik
      exact Memory.readList_congr fun b hb => (hswap b hb).1
    next hik =>
      have apart : ∀ e, e ≠ k → ∀ b < esz, ¬(base + e * esz ≤ base + k * esz + b ∧
          base + k * esz + b < base + e * esz + esz) := fun e he b hb => by
        have := element_disjoint base esz he
        omega
      exact Memory.readList_congr fun b hb => swapBytes_frame _ _ _ h _ (apart i hik b hb) (apart j hjk b hb)

/-- `42_sampler.md` rules R171, R172: the swap loop on `M` makes the draws of the loop on the list of elements, ends when
it ends, and leaves the elements it gives. -/
theorem shuffleLoop_elements {base n esz i : Nat} (hi : i ≤ n - 1) (src : Source) {m : Memory} (h : Memory.wf m) :
    shuffleLoop i src (elements m base n esz) =
      (shufLoop esz base i src m).map fun r => (elements r.2 base n esz, r.1) := by
  induction i generalizing src m with
  | zero => rfl
  | succ i ih =>
    rw [shuffleLoop, shufLoop]
    cases hdraw : uniformBelow src (i + 2) with
    | none => rfl
    | some r =>
      have hj : r.1 < i + 2 := uniformBelow_lt (i + 1).succ_pos hdraw
      simp only [← elements_swapBytes h (show i + 1 < n by omega) (show r.1 < n by omega)]
      exact ih (by omega) r.2 (swapBytes_wf _ _ _ h)

/-- The swap loop of `SHUF` on `n` elements writes only their range. -/
theorem shufLoop_frame {esz base n i : Nat} {src : Source} {m : Memory} {r : Source × Memory} (h : Memory.wf m)
    (hi : i ≤ n - 1) (hr : shufLoop esz base i src m = some r) {x : Nat} (hx : ¬inRange x base (n * esz)) :
    r.2.read x = m.read x := by
  induction i generalizing src m with
  | zero =>
    cases hr
    rfl
  | succ i ih =>
    simp only [shufLoop] at hr
    split at hr
    · cases hr
    next j src' hdraw =>
      have hj : j < i + 2 := uniformBelow_lt (i + 1).succ_pos hdraw
      have outside : ∀ e < n, ¬(base + e * esz ≤ x ∧ x < base + e * esz + esz) := fun e he => by
        have := element_le esz he
        omega
      rw [ih (swapBytes_wf _ _ _ h) (by omega) hr,
        swapBytes_frame _ _ _ h _ (outside _ (by omega)) (outside _ (by omega))]

/-! ### `SHUF` -/

theorem checkRange_of_le {s : State} {a n : Nat} (h : a + n ≤ s.cfg.memBytes) : checkRange s a n = true :=
  decide_eq_true h

/-- A command that replaces its unit and memory but not `R0` completes. -/
theorem completed_r0_self (s : State) (src : Source) (m : Memory) :
    ((s.putSource src).setMem m).complete = completed s src m s.r0 := by
  cases src <;> rfl

/-- `SHUF` with both ranges in `M`, when its draws end. -/
theorem execShuf_of_shufLoop {u : Src} {s : State} {src : Source} {m : Memory}
    (hsrc : s.a0.toNat + s.a1.toNat * s.a3.toNat ≤ s.cfg.memBytes)
    (hdst : s.a2.toNat + s.a1.toNat * s.a3.toNat ≤ s.cfg.memBytes)
    (hloop : shufLoop s.a3.toNat s.a2.toNat (s.a1.toNat - 1) (s.source u)
      (copyLoop (s.a1.toNat * s.a3.toNat) s.a0.toNat s.a2.toNat s.mem) = some (src, m)) :
    execShuf u s = .next (completed s src m s.r0) := by
  simp [execShuf, checkRange_of_le hsrc, checkRange_of_le hdst, hloop, completed_r0_self]

/-- Settles O58: the copy leaves the sequence the statement shuffles, and the swaps on `M` shuffle it in place. -/
theorem shufShufflesTheCopyForEveryPlacement : Obligations.ShufShufflesTheCopyForEveryPlacement := by
  unfold Obligations.ShufShufflesTheCopyForEveryPlacement
  intro u s r src' hwf hsrc hdst hshuffle
  have hcopy := copyLoop_wf (s.a1.toNat * s.a3.toNat) s.a0.toNat s.a2.toNat hwf
  rw [← elements_copyLoop _ _ _ _ hwf, shuffle, length_elements, shuffleLoop_elements le_rfl _ hcopy,
    Option.map_eq_some_iff] at hshuffle
  obtain ⟨⟨src, m⟩, hloop, hr⟩ := hshuffle
  cases hr
  have hexec : exec (.shuf u) s = .next (completed s src m s.r0) := execShuf_of_shufLoop hsrc hdst hloop
  have hunit : src.unit = u := by simpa using shufLoop_unit hloop
  refine ⟨_, hexec, ?_, fun u' hu => (exec_shape hexec).source_of_ne hu, rfl, rfl, completed_err .., ?_,
    completed_sameInputs .., fun a ha => ?_, fun i hi b hb => ?_⟩
  · rw [completed_source, ← hunit, State.source_putSource]
  · simp [completed]
  · exact (shufLoop_frame hcopy le_rfl hloop ha).trans (copyLoop_frame _ _ _ hwf _ ha)
  · rw [getD_elements _ _ hi hb, completed_mem]

end Sys2Proof.Machine

/-! The command word (`30_encoding.md`). The fields of a word `cmd32` lays out are those it was given, and a word with clear
reserved bits is laid out from its own fields; what `decode` can answer is said once, family by family (`decode_decoding`), and
the statements about it are read off that. A row of the opcode table determines the fields that decide whether a word is legal,
and no two rows overlap. After these stand the examples of rule R83 and the start of a command. -/

namespace Sys2Proof

/-! ### The fields of a word (rule R70) -/

section Fields

variable (op : BitVec 8) (u : Src) (ty : BitVec 3) (imm8 : Byte)

/-- The fields of `cmd32` at the sum of their widths, the form the library's lemmas on `++` speak of. -/
theorem extractLsb'_cmd32 (start len : Nat) :
    (cmd32 op u ty imm8).extractLsb' start len =
      (0#8 ++ imm8 ++ 0#1 ++ ty ++ 0#3 ++ u.bit ++ op).extractLsb' start len := rfl

@[simp] theorem opField_cmd32 : opField (cmd32 op u ty imm8) = op := by
  simp [opField, extractLsb'_cmd32, BitVec.extractLsb'_append_eq_ite, -Nat.reduceAdd]

@[simp] theorem tyField_cmd32 : tyField (cmd32 op u ty imm8) = ty := by
  simp [tyField, extractLsb'_cmd32, BitVec.extractLsb'_append_eq_ite, -Nat.reduceAdd]

@[simp] theorem immField_cmd32 : immField (cmd32 op u ty imm8) = imm8 := by
  simp [immField, extractLsb'_cmd32, BitVec.extractLsb'_append_eq_ite, -Nat.reduceAdd]

@[simp] theorem srcField_cmd32 : srcField (cmd32 op u ty imm8) = u := by
  cases u <;> simp [srcField, extractLsb'_cmd32, BitVec.extractLsb'_append_eq_ite, Src.bit, -Nat.reduceAdd]

@[simp] theorem reservedClear_cmd32 : reservedClear (cmd32 op u ty imm8) = true := by
  simp [reservedClear, extractLsb'_cmd32, BitVec.extractLsb'_append_eq_ite, -Nat.reduceAdd]

end Fields

theorem reservedClear_iff {w : CmdWord} :
    reservedClear w = true ↔ w.extractLsb' 24 8 = 0#8 ∧ w.extractLsb' 15 1 = 0#1 ∧ w.extractLsb' 9 3 = 0#3 := by
  simp [reservedClear, and_assoc]

theorem srcField_bit (w : CmdWord) : (srcField w).bit = w.extractLsb' 8 1 := by
  rcases BitVec.eq_zero_or_eq_one (w.extractLsb' 8 1) with h | h <;> simp [srcField, h, Src.bit]

/-- A word is its seven fields, one beside the other. -/
theorem append_fields (w : CmdWord) :
    w.extractLsb' 24 8 ++ w.extractLsb' 16 8 ++ w.extractLsb' 15 1 ++ w.extractLsb' 12 3 ++ w.extractLsb' 9 3 ++
      w.extractLsb' 8 1 ++ w.extractLsb' 0 8 = w := by
  iterate 6 rw [BitVec.extractLsb'_append_extractLsb'_eq_extractLsb' (by rfl)]
  exact BitVec.extractLsb'_eq_self

/-- A word whose reserved bits are 0 is laid out from its four fields. -/
theorem cmd32_fields {w : CmdWord} (h : reservedClear w = true) :
    cmd32 (opField w) (srcField w) (tyField w) (immField w) = w := by
  obtain ⟨h24, h15, h9⟩ := reservedClear_iff.1 h
  rw [cmd32, srcField_bit, ← h24, ← h15, ← h9]
  exact append_fields w

/-! ### The encoder by families (rules R72 to R75) -/

@[simp] theorem code_typeOfCode (ty : BitVec 3) : (typeOfCode ty).code = ty := by
  revert ty
  decide

theorem encode_bySrc {w : CmdWord} {cc cas : Instr} {op : BitVec 8} {imm8 : Byte} (hcc : encode cc = cmd32 op .cc 0#3 imm8)
    (hcas : encode cas = cmd32 op .cas 0#3 imm8) : encode (bySrc w cc cas) = cmd32 op (srcField w) 0#3 imm8 := by
  unfold bySrc
  cases srcField w with
  | cc => exact hcc
  | cas => exact hcas

theorem encode_ugenOf (t : IntType) (u : Src) : encode (ugenOf t u) = cmd32 0x12#8 u t.code 0#8 := by
  cases t <;> rfl

/-! ### The answers of the decoder (rule R77) -/

theorem plainCommand_eq_ok {w : CmdWord} {i j : Instr} :
    plainCommand w j = .ok i ↔ tyField w = 0#3 ∧ immField w = 0#8 ∧ j = i := by
  unfold plainCommand
  split_ifs <;> simp_all

theorem stepCommand_eq_ok {w : CmdWord} {i : Instr} :
    stepCommand w = .ok i ↔ tyField w = 0#3 ∧ bySrc w (.stepCc (immField w)) (.stepCas (immField w)) = i := by
  unfold stepCommand bySrc
  split_ifs <;> simp_all

theorem ugenCommand_eq_ok {w : CmdWord} {i : Instr} :
    ugenCommand w = .ok i ↔ immField w = 0#8 ∧ ugenOf (typeOfCode (tyField w)) (srcField w) = i := by
  unfold ugenCommand
  split_ifs <;> simp_all

/-- An answer of the decoder is a refusal when it is no command. -/
theorem refuses_iff {r : Except Illegal Instr} : (∃ e, r = .error e) ↔ ¬∃ i, r = .ok i := by
  cases r <;> simp

/-- The ten values of `OP` (rule R72). -/
def assignedOps : List (BitVec 8) :=
  [0x01#8, 0x02#8, 0x03#8, 0x04#8, 0x05#8, 0x10#8, 0x11#8, 0x12#8, 0x18#8, 0x19#8]

/-- The values of `OP` of the commands in which both `TY` and `IMM8` must be 0: all but `STEP` and `UGEN` (rule R77). -/
def plainOps : List (BitVec 8) := [0x01#8, 0x02#8, 0x04#8, 0x05#8, 0x10#8, 0x11#8, 0x18#8, 0x19#8]

theorem mem_plainOps {op : BitVec 8} (h : op ∈ plainOps) : op ∈ assignedOps ∧ op ≠ 0x03#8 ∧ op ≠ 0x12#8 := by
  revert op
  decide

/-- What the decoder can answer for a word, by the family of its `OP`. -/
inductive Decoding (w : CmdWord) : Except Illegal Instr → Prop
  | reserved (hres : reservedClear w = false) : Decoding w (.error .reservedBit)
  | plain (hres : reservedClear w = true) (hop : opField w ∈ plainOps) (i : Instr)
      (hi : encode i = cmd32 (opField w) (srcField w) 0#3 0#8) : Decoding w (plainCommand w i)
  | step (hres : reservedClear w = true) (hop : opField w = 0x03#8) : Decoding w (stepCommand w)
  | ugen (hres : reservedClear w = true) (hop : opField w = 0x12#8) : Decoding w (ugenCommand w)
  | unassigned (hres : reservedClear w = true) (hop : opField w ∉ assignedOps) : Decoding w (.error .unassignedOp)

/-- The answer for an `OP` of a plain command, given the value of `OP`. -/
theorem Decoding.of_op {w : CmdWord} (op : BitVec 8) {i : Instr} (hres : reservedClear w = true) (hop : opField w = op)
    (hmem : op ∈ plainOps) (hi : encode i = cmd32 op (srcField w) 0#3 0#8) : Decoding w (plainCommand w i) := by
  subst hop
  exact .plain hres hmem i hi

theorem decode_decoding (w : CmdWord) : Decoding w (decode w) := by
  refine iteInduction .reserved fun hres => ?_
  replace hres : reservedClear w = true := by simpa using hres
  refine iteInduction (fun h01 => .of_op _ hres h01 (by decide) (encode_bySrc rfl rfl)) fun h01 => ?_
  refine iteInduction (fun h02 => .of_op _ hres h02 (by decide) (encode_bySrc rfl rfl)) fun h02 => ?_
  refine iteInduction (fun h03 => .step hres h03) fun h03 => ?_
  refine iteInduction (fun h04 => .of_op _ hres h04 (by decide) (encode_bySrc rfl rfl)) fun h04 => ?_
  refine iteInduction (fun h05 => .of_op _ hres h05 (by decide) (encode_bySrc rfl rfl)) fun h05 => ?_
  refine iteInduction (fun h10 => .of_op _ hres h10 (by decide) rfl) fun h10 => ?_
  refine iteInduction (fun h11 => .of_op _ hres h11 (by decide) rfl) fun h11 => ?_
  refine iteInduction (fun h12 => .ugen hres h12) fun h12 => ?_
  refine iteInduction (fun h18 => .of_op _ hres h18 (by decide) rfl) fun h18 => ?_
  refine iteInduction (fun h19 => .of_op _ hres h19 (by decide) rfl) fun h19 => ?_
  exact .unassigned hres (by simp [assignedOps, h01, h02, h03, h04, h05, h10, h11, h12, h18, h19])

/-! ### Decoding and encoding undo each other -/

/-- Settles O3: each field is read back from the word that was laid out from it. -/
theorem decodeReadsEncodedCommand : Obligations.DecodeReadsEncodedCommand := by
  unfold Obligations.DecodeReadsEncodedCommand
  intro i
  cases i with
  | resetCc | resetCas | keyCc | keyCas | xorCc | xorCas | readCc | readCas =>
    simp [encode, decode, plainCommand, bySrc]
  | stepCc imm8 | stepCas imm8 => simp [encode, decode, stepCommand]
  | ubelowS u | ubelowU u | perm u | shuf u => simp [encode, decode, plainCommand]
  | ugenU8 u | ugenU16 u | ugenU32 u | ugenU64 u | ugenI8 u | ugenI16 u | ugenI32 u | ugenI64 u =>
    simp [encode, decode, ugenCommand, typeOfCode, IntType.code, ugenOf]

/-- Settles O4: a word that decodes has clear reserved bits, so it is laid out from its fields, and its command is encoded from
the same fields. -/
theorem encodeRestoresDecodedWord : Obligations.EncodeRestoresDecodedWord := by
  unfold Obligations.EncodeRestoresDecodedWord
  intro w i h
  generalize hr : decode w = r at h
  cases hr ▸ decode_decoding w with
  | reserved | unassigned => cases h
  | plain hres hop j hj =>
    obtain ⟨hty, himm, rfl⟩ := plainCommand_eq_ok.1 h
    rw [hj, ← hty, ← himm, cmd32_fields hres]
  | step hres hop =>
    obtain ⟨hty, rfl⟩ := stepCommand_eq_ok.1 h
    rw [encode_bySrc rfl rfl, ← hop, ← hty, cmd32_fields hres]
  | ugen hres hop =>
    obtain ⟨himm, rfl⟩ := ugenCommand_eq_ok.1 h
    rw [encode_ugenOf, code_typeOfCode, ← hop, ← himm, cmd32_fields hres]

/-! ### Which words are illegal -/

/-- Rule R77 in the names of the fields. -/
abbrev IllegalFields (w : CmdWord) : Prop :=
  opField w ∉ assignedOps ∨ reservedClear w = false ∨ (tyField w ≠ 0#3 ∧ opField w ≠ 0x12#8) ∨
    (immField w ≠ 0#8 ∧ opField w ≠ 0x03#8)

theorem decode_refuses_iff (w : CmdWord) : (∃ e, decode w = .error e) ↔ IllegalFields w := by
  rw [refuses_iff, IllegalFields]
  generalize hr : decode w = r
  cases hr ▸ decode_decoding w with
  | reserved hres => simp [hres]
  | plain hres hop j =>
    obtain ⟨hmem, hstep, hugen⟩ := mem_plainOps hop
    simp [plainCommand_eq_ok, hres, hmem, hstep, hugen, imp_iff_not_or]
  | step hres hop => simp [stepCommand_eq_ok, hres, hop, assignedOps]
  | ugen hres hop => simp [ugenCommand_eq_ok, hres, hop, assignedOps]
  | unassigned hres hop => simp [hop]

/-- Settles O5: the reserved bits of rule R70 are the three ranges the statement lists. -/
theorem illegalWordsExactly : Obligations.IllegalWordsExactly := by
  unfold Obligations.IllegalWordsExactly
  intro w
  rw [decode_refuses_iff, IllegalFields, ← Bool.not_eq_true, reservedClear_iff]
  simp only [not_and_or, or_assoc]
  rfl

/-! ### The rows of the opcode table (rule R78) -/

/-- A field a mask keeps whole is the field of the masked word. -/
theorem extractLsb'_of_and {w m p : CmdWord} {start len : Nat} (h : w &&& m = p)
    (hm : m.extractLsb' start len = BitVec.allOnes len) : w.extractLsb' start len = p.extractLsb' start len := by
  rw [← h, BitVec.extractLsb'_and, hm, BitVec.and_allOnes]

/-- The `match` of every row is itself a legal word. -/
theorem opcodeTable_patterns : ∀ r ∈ opcodeTable, ¬IllegalFields r.pattern := by
  decide

/-- The `mask` of every row keeps every field but `SRC` and the `IMM8` of `STEP`. -/
theorem opcodeTable_masks : ∀ r ∈ opcodeTable,
    opField r.mask = BitVec.allOnes 8 ∧ tyField r.mask = BitVec.allOnes 3 ∧
    r.mask.extractLsb' 24 8 = BitVec.allOnes 8 ∧ r.mask.extractLsb' 15 1 = BitVec.allOnes 1 ∧
    r.mask.extractLsb' 9 3 = BitVec.allOnes 3 ∧
    (opField r.pattern ≠ 0x03#8 → immField r.mask = BitVec.allOnes 8) := by
  decide

/-- A word that selects a row is legal: it agrees with the row's `match` in every field that rule R77 asks about. -/
theorem legal_of_selects {r : OpcodeRow} {w : CmdWord} (hr : r ∈ opcodeTable) (h : w &&& r.mask = r.pattern) :
    ¬IllegalFields w := by
  obtain ⟨mop, mty, m24, m15, m9, mimm⟩ := opcodeTable_masks r hr
  have hop : opField w = opField r.pattern := extractLsb'_of_and h mop
  have hty : tyField w = tyField r.pattern := extractLsb'_of_and h mty
  have hres : reservedClear w = reservedClear r.pattern := by
    simp only [reservedClear, extractLsb'_of_and h m24, extractLsb'_of_and h m15, extractLsb'_of_and h m9]
  have himm : opField r.pattern ≠ 0x03#8 → immField w = immField r.pattern := fun hstep =>
    extractLsb'_of_and h (mimm hstep)
  intro hw
  rw [IllegalFields, hop, hty, hres] at hw
  exact opcodeTable_patterns r hr
    (hw.imp_right (.imp_right (.imp_right fun ⟨hne, hstep⟩ => ⟨himm hstep ▸ hne, hstep⟩)))

/-- No two rows overlap: the patterns of different rows differ in a bit that both masks keep. -/
theorem opcodeTable_disjoint : ∀ r ∈ opcodeTable, ∀ r' ∈ opcodeTable,
    r.pattern &&& r'.mask = r'.pattern &&& r.mask → r = r' := by
  decide

theorem eq_of_selects {r r' : OpcodeRow} {w : CmdWord} (hr : r ∈ opcodeTable) (hr' : r' ∈ opcodeTable)
    (h : w &&& r.mask = r.pattern) (h' : w &&& r'.mask = r'.pattern) : r = r' := by
  refine opcodeTable_disjoint r hr r' hr' ?_
  rw [← h, ← h', BitVec.and_assoc, BitVec.and_assoc, BitVec.and_comm r.mask]

/-- A word that selects a row selects no other. -/
theorem filter_selects {r : OpcodeRow} {w : CmdWord} (hr : r ∈ opcodeTable) (h : w &&& r.mask = r.pattern) :
    opcodeTable.filter (fun r' => decide (w &&& r'.mask = r'.pattern)) = [r] := by
  have honly : ∀ r' ∈ opcodeTable, decide (w &&& r'.mask = r'.pattern) = (r' == r) := by
    intro r' hr'
    rw [Bool.eq_iff_iff, decide_eq_true_iff, beq_iff_eq]
    exact ⟨fun h' => eq_of_selects hr' hr h' h, fun heq => heq ▸ h⟩
  have hnodup : opcodeTable.Nodup := by decide
  rw [List.filter_congr honly, List.filter_beq, List.count_eq_one_of_mem hnodup hr, List.replicate_one]

section

open Laws.EncodesItsRow

/-- The law made instruction by instruction, for all of them. -/
theorem encode_selects_its_row : ∀ i : Instr, Statement i
  | .resetCc => resetCc
  | .resetCas => resetCas
  | .keyCc => keyCc
  | .keyCas => keyCas
  | .stepCc imm8 => stepCc imm8
  | .stepCas imm8 => stepCas imm8
  | .xorCc => xorCc
  | .xorCas => xorCas
  | .readCc => readCc
  | .readCas => readCas
  | .ubelowS u => ubelowS u
  | .ubelowU u => ubelowU u
  | .ugenU8 u => ugenU8 u
  | .ugenU16 u => ugenU16 u
  | .ugenU32 u => ugenU32 u
  | .ugenU64 u => ugenU64 u
  | .ugenI8 u => ugenI8 u
  | .ugenI16 u => ugenI16 u
  | .ugenI32 u => ugenI32 u
  | .ugenI64 u => ugenI64 u
  | .perm u => perm u
  | .shuf u => shuf u

end

/-- Settles O6: a legal word is the encoding of its command, which selects that command's row, and no other row overlaps it; a
word that selects a row is legal. -/
theorem everyWordMatchesItsRowOrIsIllegal : Obligations.EveryWordMatchesItsRowOrIsIllegal := by
  unfold Obligations.EveryWordMatchesItsRowOrIsIllegal
  intro w
  cases hw : decode w with
  | ok i =>
    obtain ⟨r, hr, hname, hsel⟩ := encode_selects_its_row i
    rw [encodeRestoresDecodedWord w i hw] at hsel
    refine .inl ⟨i, rfl, ?_⟩
    rw [filter_selects hr (of_decide_eq_true hsel), List.map_singleton, hname]
  | error e =>
    refine .inr ⟨⟨e, rfl⟩, List.filter_eq_nil_iff.2 fun r hr hsel => ?_⟩
    exact legal_of_selects hr (of_decide_eq_true hsel) ((decode_refuses_iff w).1 ⟨e, hw⟩)

end Sys2Proof

namespace Sys2Proof.Machine

/-! ### The examples of rule R83, and the start of a command (rule R80) -/

/-- Settles O7: the words and lines of the examples, evaluated. -/
theorem exampleWordsDecode : Obligations.ExampleWordsDecode :=
  ⟨rfl, rfl, rfl, rfl, rfl, rfl, ⟨_, rfl⟩, ⟨_, rfl⟩, ⟨_, rfl⟩, rfl, rfl, rfl, rfl⟩

theorem writeCmd_of_legal {s : State} {w : CmdWord} {i : Instr} (herr : s.err = false) (hw : decode w = .ok i) :
    writeCmd w s = exec i s := by
  simp [writeCmd, herr, hw]

/-- Settles O8: the write is the access performed, and on an idle block it starts its command. -/
theorem stepRunsTheDecodedCommand : Obligations.StepRunsTheDecodedCommand := by
  unfold Obligations.StepRunsTheDecodedCommand
  intro s w rest i hidle hpending hw
  obtain ⟨hbusy, herr⟩ := hidle
  rw [step_of_not_busy hbusy hpending]
  exact writeCmd_of_legal (s := { s with pending := rest }) herr hw

end Sys2Proof.Machine

/-! The cipher (`40_ciphercore.md`, `41_cascaded.md`). One law about `SrcFill` gives the keystream of either unit byte by byte;
one about the loop of `XOR` gives what it leaves for every placement of its ranges. `KEY`, `XOR` and `READ` are then one
equation each for both units, with a `completed` state, and the statements about them are read off those equations. That a
command's effects depend only on what it reads is a relation between two runs, kept by every operation on `M`. -/

namespace Sys2Proof.Machine

/-! ### One lane -/

theorem Lane.coreStep_p (L : Lane) (x : Byte) : (L.coreStep x).2.p = L.p + 1#8 := rfl

theorem Lane.coreStep_q (L : Lane) (x : Byte) : (L.coreStep x).2.q = L.q + (L.entry (L.p + 1#8) + x) := by
  simp [Lane.coreStep]

/-- `40_ciphercore.md` rule R100: the byte returned. When `q` has come to `p` it reads the entry just written. -/
theorem Lane.coreStep_fst (L : Lane) (x : Byte) :
    (L.coreStep x).1 = L.entry (L.p + 1#8) + x +
      ((if (L.coreStep x).2.q = L.p + 1#8 then L.entry (L.p + 1#8) + x else L.entry (L.coreStep x).2.q) + (L.p + 1#8)) := by
  simp [Lane.coreStep, Lane.entry_setEntry]

/-- The byte returned is the one entry that is not as before. -/
theorem Lane.coreStep_entry (L : Lane) (x j : Byte) :
    (L.coreStep x).2.entry j = if j = L.p + 1#8 then (L.coreStep x).1 else L.entry j := by
  simp only [Lane.coreStep, Lane.entry_setEntry, Lane.entry_mk_cursors, Lane.setEntry_p]
  split
  · simp
  · rfl

/-- Settles O21: the four laws of `coreStep`, with the cursor `q'` written out. -/
theorem coreStepWritesOneEntry : Obligations.CoreStepWritesOneEntry := by
  unfold Obligations.CoreStepWritesOneEntry
  intro L x p t q v
  have hq : (L.coreStep x).2.q = q := L.coreStep_q x
  have hv : (L.coreStep x).1 = v := by rw [L.coreStep_fst, hq]
  refine ⟨hv, L.coreStep_p x, hq, fun j => ?_⟩
  rw [L.coreStep_entry, hv]

/-! ### The keystream of a source -/

@[simp] theorem Source.after_zero (src : Source) : src.after 0 = src := rfl

theorem Source.after_succ (src : Source) (n : Nat) : src.after (n + 1) = (src.step 0#8).2.after n := rfl

theorem Source.keystream_zero (src : Source) : src.keystream 0 = (src.step 0#8).1 := rfl

theorem Source.keystream_succ (src : Source) (n : Nat) : src.keystream (n + 1) = (src.step 0#8).2.keystream n := rfl

@[simp] theorem Source.unit_after (src : Source) (n : Nat) : (src.after n).unit = src.unit := by
  induction n generalizing src with
  | zero => rfl
  | succ n ih => rw [Source.after_succ, ih, Source.unit_step]

/-- `42_sampler.md` rule R151: `SrcFill` XORs byte `i` with keystream byte `i` and advances by the length. -/
theorem Source.fill_eq (src : Source) (buf : List Byte) :
    src.fill buf =
      ((List.range buf.length).map fun i => buf.getD i 0#8 ^^^ src.keystream i, src.after buf.length) := by
  induction buf generalizing src with
  | nil => rfl
  | cons b bs ih =>
    simp [Source.fill, ih, List.range_succ_eq_map, Function.comp_def, Source.keystream_zero, Source.keystream_succ,
      Source.after_succ]

/-- `KeystreamXor` (`40_ciphercore.md` rule R104) is `SrcFill` on the lane. -/
theorem Lane.fill_eq_keystreamXor (L : Lane) (buf : List Byte) :
    (Source.cc L).fill buf = ((L.keystreamXor buf).1, .cc (L.keystreamXor buf).2) := by
  induction buf generalizing L with
  | nil => rfl
  | cons b bs ih => simp [Source.fill, Source.step, Lane.keystreamXor, ih]

/-- `CasKeystreamXor` (`41_cascaded.md` rule R133) is `SrcFill` on the cascade. -/
theorem Cascade.fill_eq_keystreamXor (c : Cascade) (buf : List Byte) :
    (Source.cas c).fill buf = ((c.keystreamXor buf).1, .cas (c.keystreamXor buf).2) := by
  induction buf generalizing c with
  | nil => rfl
  | cons b bs ih => simp [Source.fill, Source.step, Cascade.keystreamXor, ih]

/-- Settles O22: both are `SrcFill`, which is bytewise. -/
theorem keystreamXorIsBytewise : Obligations.KeystreamXorIsBytewise := by
  unfold Obligations.KeystreamXorIsBytewise
  refine ⟨fun L buf => ?_, fun c buf => ?_⟩
  · exact Prod.ext_iff.1 ((L.fill_eq_keystreamXor buf).symm.trans (Source.fill_eq _ buf))
  · exact Prod.ext_iff.1 ((c.fill_eq_keystreamXor buf).symm.trans (Source.fill_eq _ buf))

/-! ### Keying -/

theorem Lane.absorb_eq_foldl (L : Lane) (xs : List Byte) : L.absorb xs = xs.foldl (fun L x => (L.coreStep x).2) L := by
  induction xs generalizing L with
  | nil => rfl
  | cons x xs ih => exact ih _

/-- Each byte absorbed moves `p` on by one. -/
theorem Lane.absorb_p (L : Lane) (xs : List Byte) : (L.absorb xs).p = L.p + BitVec.ofNat 8 xs.length := by
  induction xs generalizing L with
  | nil => simp [Lane.absorb]
  | cons x xs ih =>
    rw [Lane.absorb, ih, Lane.coreStep_p, BitVec.add_assoc, BitVec.add_comm 1#8, List.length_cons, BitVec.ofNat_add]

/-- `40_ciphercore.md` rule R103: the reset, the key and the warm-up are one pass from the all-zero lane. -/
theorem Lane.construct_eq_keyedLane (L : Lane) (key : List Byte) : L.construct key = keyedLane key := by
  rw [Lane.construct, ← Lane.absorb_append, Lane.clear_eq_zero, Lane.absorb_eq_foldl]
  rfl

/-- The warm-up goes once round the table, so that `p` is the key's length. -/
theorem keyedLane_p (key : List Byte) : (keyedLane key).p = BitVec.ofNat 8 key.length := by
  rw [← Lane.zero.construct_eq_keyedLane, Lane.construct, Lane.absorb_p, Lane.absorb_p, Lane.clear_p]
  simp [warmupInputs, warmupSteps]

/-- Keying a cascade does not depend on what its lanes held. -/
theorem Cascade.construct_eq_of_key (c c' : Cascade) (key : List Byte) : c.construct key = c'.construct key := by
  simp only [Cascade.construct, Lane.construct_eq_keyedLane]

/-- The contents a key gives a unit (`40_ciphercore.md` rule R103, `41_cascaded.md` rule R132). -/
def Source.keyed : Src → List Byte → Source
  | .cc, key => .cc (keyedLane key)
  | .cas, key => .cas (Cascade.zero.construct key)

@[simp] theorem Source.unit_keyed (u : Src) (key : List Byte) : (Source.keyed u key).unit = u := by
  cases u with
  | cc => rfl
  | cas => rfl

/-- `40_ciphercore.md` rule R107, `41_cascaded.md` rule R136: `KEY` on either unit, its key in `M`. -/
theorem exec_construct {u : Src} {s : State} (h : s.a0.toNat + s.a1.toNat ≤ s.cfg.memBytes) :
    exec (Pseudo.construct.expand u) s =
      .next (completed s (.keyed u (s.mem.readList s.a0.toNat s.a1.toNat)) s.mem s.r0) := by
  cases u with
  | cc =>
    simp only [Pseudo.expand, exec, execKeyCc, checkRange_of_le h, Bool.true_eq_false, if_false,
      Lane.construct_eq_keyedLane, Source.keyed]
    rfl
  | cas =>
    simp only [Pseudo.expand, exec, execKeyCas, checkRange_of_le h, Bool.true_eq_false, if_false,
      Cascade.construct_eq_of_key s.cas .zero, Source.keyed]
    rfl

/-- Settles O24: `KEY` on unit `CC`, and the cursor of a keyed lane. -/
theorem keyCcKeysTheLane : Obligations.KeyCcKeysTheLane := by
  unfold Obligations.KeyCcKeysTheLane
  intro s h
  refine ⟨exec_construct (u := .cc) h, ?_⟩
  rw [keyedLane_p, Memory.length_readList]
  rfl

/-! ### The state after a command that completes -/

section

variable (s : State) (src : Source) (m : Memory) (v : Word64)

@[simp] theorem completed_cfg : (completed s src m v).cfg = s.cfg := by simp [completed]

@[simp] theorem completed_errcode : (completed s src m v).errcode = s.errcode := by simp [completed]

/-- The command's unit holds what was put there. -/
theorem completed_source_self {u : Src} {src : Source} (hu : src.unit = u) : (completed s src m v).source u = src := by
  rw [completed_source, ← hu, State.source_putSource]

theorem completed_source_of_ne {u : Src} {src : Source} (hu : src.unit = u) {u' : Src} (hne : u' ≠ u) :
    (completed s src m v).source u' = s.source u' := by
  rw [completed_source, State.source_putSource_of_ne s src u' (hu ▸ hne)]

end

/-- Settles O28: the contents a key gives a unit are named by the key alone. -/
theorem keyingForgetsThePast : Obligations.KeyingForgetsThePast := by
  unfold Obligations.KeyingForgetsThePast
  intro u s s' h h' hkey
  refine ⟨_, _, exec_construct h, exec_construct h', ?_⟩
  rw [completed_source_self _ _ _ (Source.unit_keyed ..), completed_source_self _ _ _ (Source.unit_keyed ..), hkey]

/-! ### The loop of `XOR` -/

/-- The loop makes one step for each byte, whatever the memory. -/
theorem xorLoop_fst (n a d : Nat) (src : Source) (m : Memory) : (xorLoop n a d src m).1 = src.after n := by
  induction n generalizing a d src m with
  | zero => rfl
  | succ n ih => rw [xorLoop, ih, Source.after_succ]

/-- `20_memory.md` rule R64: what the loop leaves at its destination, for every placement of the two ranges. A source byte that
lies in the destination, above its start, has been written before it is read. -/
theorem xorLoop_read {n : Nat} (a d : Nat) (src : Source) {m : Memory} (h : Memory.wf m) {j : Nat} (hj : j < n) :
    (xorLoop n a d src m).2.read (d + j) =
      (if a < d ∧ d ≤ a + j then (xorLoop n a d src m).2.read (a + j) else m.read (a + j)) ^^^ src.keystream j := by
  induction n generalizing a d src m j with
  | zero => omega
  | succ n ih =>
    have hwf := Memory.wf_write h d (m.read a ^^^ (src.step 0#8).1)
    have hfirst : (xorLoop (n + 1) a d src m).2.read d = m.read a ^^^ (src.step 0#8).1 := by
      rw [xorLoop, xorLoop_frame _ _ _ _ hwf _ (by omega), Memory.read_write_self h]
    cases j with
    | zero =>
      simp only [Nat.add_zero]
      rw [hfirst, if_neg (by omega), Source.keystream_zero]
    | succ j =>
      have hrest := ih (a + 1) (d + 1) (src.step 0#8).2 hwf (Nat.lt_of_succ_lt_succ hj)
      rw [show d + 1 + j = d + (j + 1) by omega, show a + 1 + j = a + (j + 1) by omega, ← xorLoop] at hrest
      rw [hrest, Source.keystream_succ]
      congr 1
      by_cases hmeet : d = a + (j + 1)
      · rw [if_neg (by omega), if_pos (by omega), ← hmeet, hfirst, Memory.read_write_self h]
      · rw [Memory.read_write_of_ne h _ (Ne.symm hmeet)]
        exact if_congr (by omega) rfl rfl

/-- On ranges that are equal or do not meet, every source byte is read as it was. -/
theorem xorLoop_read_of_apart {n a d : Nat} (src : Source) {m : Memory} (h : Memory.wf m) (hd : EqualOrDisjoint a d n)
    {j : Nat} (hj : j < n) : (xorLoop n a d src m).2.read (d + j) = m.read (a + j) ^^^ src.keystream j := by
  rw [xorLoop_read a d src h hj, if_neg (by omega)]

/-- `40_ciphercore.md` rule R117: the loop over a range is the loop over its first part and then over the rest. -/
theorem xorLoop_add (n k a d : Nat) (src : Source) (m : Memory) :
    xorLoop (n + k) a d src m =
      xorLoop k (a + n) (d + n) (xorLoop n a d src m).1 (xorLoop n a d src m).2 := by
  induction n generalizing a d src m with
  | zero =>
    rw [Nat.zero_add]
    rfl
  | succ n ih => rw [Nat.succ_add, xorLoop, ih, xorLoop, Nat.succ_add_eq_add_succ, Nat.succ_add_eq_add_succ]

/-! ### `XOR` and `READ` -/

/-- `40_ciphercore.md` rule R109, `41_cascaded.md` rule R138: `XOR` on either unit, both ranges in `M`. -/
theorem exec_encrypt {u : Src} {s : State} (hsrc : s.a0.toNat + s.a1.toNat ≤ s.cfg.memBytes)
    (hdst : s.a2.toNat + s.a1.toNat ≤ s.cfg.memBytes) :
    exec (Pseudo.encrypt.expand u) s = .next (completed s ((s.source u).after s.a1.toNat)
      (xorLoop s.a1.toNat s.a0.toNat s.a2.toNat (s.source u) s.mem).2 s.r0) := by
  have hexec : exec (Pseudo.encrypt.expand u) s = .next (xorOn u s) := by cases u <;> rfl
  simp only [hexec, xorOn, checkRange_of_le hsrc, checkRange_of_le hdst, Bool.true_eq_false, if_false, xorLoop_fst,
    completed_r0_self]

/-- `40_ciphercore.md` rule R110, `41_cascaded.md` rule R139: `READ` on either unit, its buffer in `M`. -/
theorem exec_fill {u : Src} {s : State} (hbuf : s.a0.toNat + s.a1.toNat ≤ s.cfg.memBytes) :
    exec (Pseudo.fill.expand u) s = .next (completed s ((s.source u).after s.a1.toNat)
      (xorLoop s.a1.toNat s.a0.toNat s.a0.toNat (s.source u) s.mem).2 s.a1) := by
  have hexec : exec (Pseudo.fill.expand u) s = .next (readOn u s) := by cases u <;> rfl
  simp only [hexec, readOn, checkRange_of_le hbuf, Bool.true_eq_false, if_false, xorLoop_fst, completed]

/-- Settles O30: the state `XOR` completes in, and the law of its loop. -/
theorem xorWritesKeystreamXor : Obligations.XorWritesKeystreamXor := by
  unfold Obligations.XorWritesKeystreamXor
  intro u s hwf hsrc hdst
  have hunit : ((s.source u).after s.a1.toNat).unit = u := by simp
  exact ⟨_, exec_encrypt hsrc hdst, completed_source_self _ _ _ hunit, fun u' => completed_source_of_ne _ _ _ hunit,
    rfl, rfl, completed_err .., completed_errcode .., completed_sameInputs .., xorLoop_frame _ _ _ _ hwf,
    fun j => xorLoop_read _ _ _ hwf⟩

/-- Settles O31: the state `READ` completes in, and the law of the loop on equal ranges. -/
theorem readXorsIntoTheBuffer : Obligations.ReadXorsIntoTheBuffer := by
  unfold Obligations.ReadXorsIntoTheBuffer
  intro u s hwf hbuf
  have hunit : ((s.source u).after s.a1.toNat).unit = u := by simp
  exact ⟨_, exec_fill hbuf, completed_source_self _ _ _ hunit, fun u' => completed_source_of_ne _ _ _ hunit,
    rfl, rfl, completed_err .., completed_errcode .., completed_sameInputs .., xorLoop_frame _ _ _ _ hwf,
    fun j => xorLoop_read_of_apart _ hwf (.inl rfl)⟩

/-! ### Consecutive ranges, and decryption -/

theorem Source.after_add (src : Source) (n k : Nat) : src.after (n + k) = (src.after n).after k := by
  induction n generalizing src with
  | zero => rw [Nat.zero_add, Source.after_zero]
  | succ n ih => rw [Nat.succ_add, Source.after_succ, ih, Source.after_succ]

/-- The second part of a range in `M`: its address register wraps only when the part is empty (`20_memory.md` rule R55). -/
theorem toNat_add_ofNat_of_le {a : Word64} {n k size : Nat} (hsize : size ≤ 2 ^ 64) (h : a.toNat + (n + k) ≤ size) :
    (a + BitVec.ofNat 64 n).toNat + k ≤ size ∧ (k ≠ 0 → (a + BitVec.ofNat 64 n).toNat = a.toNat + n) := by
  rw [BitVec.toNat_add, BitVec.toNat_ofNat, Nat.add_mod_mod]
  refine ⟨?_, fun hk => Nat.mod_eq_of_lt (by omega)⟩
  have := Nat.mod_le (a.toNat + n) (2 ^ 64)
  omega

/-- Where the loop starts does not matter when it does nothing. -/
theorem xorLoop_congr_addr {k a a' d d' : Nat} (src : Source) (m : Memory) (ha : k ≠ 0 → a' = a) (hd : k ≠ 0 → d' = d) :
    xorLoop k a' d' src m = xorLoop k a d src m := by
  cases k with
  | zero => rfl
  | succ k => rw [ha k.succ_ne_zero, hd k.succ_ne_zero]

/-- States whose two units hold the same have the same lanes. -/
theorem State.lanes_eq_of_source_eq {s t : State} (h : ∀ u, t.source u = s.source u) : t.cc = s.cc ∧ t.cas = s.cas :=
  ⟨Source.cc.inj (h .cc), Source.cas.inj (h .cas)⟩

/-- `KEY` once its operands are written: what a command after it sees. -/
theorem exec_construct_at (u : Src) (s : State) {addr len : Word64} (h : addr.toNat + len.toNat ≤ s.cfg.memBytes) :
    ∃ t, exec (Pseudo.construct.expand u) { s with a0 := addr, a1 := len } = .next t ∧
      t.source u = .keyed u (s.mem.readList addr.toNat len.toNat) ∧ t.mem = s.mem ∧ t.cfg = s.cfg :=
  ⟨_, exec_construct h, completed_source_self _ _ _ (Source.unit_keyed ..), rfl, completed_cfg ..⟩

/-- `XOR` once its operands are written: what a command after it sees. -/
theorem exec_encrypt_at (u : Src) (s : State) {src n dst : Word64} (hsrc : src.toNat + n.toNat ≤ s.cfg.memBytes)
    (hdst : dst.toNat + n.toNat ≤ s.cfg.memBytes) :
    ∃ t, exec (Pseudo.encrypt.expand u) { s with a0 := src, a1 := n, a2 := dst } = .next t ∧
      t.source u = (s.source u).after n.toNat ∧ (∀ u', u' ≠ u → t.source u' = s.source u') ∧
      t.mem = (xorLoop n.toNat src.toNat dst.toNat (s.source u) s.mem).2 ∧ t.r0 = s.r0 ∧ t.err = s.err ∧
      t.cfg = s.cfg := by
  have hsource : ∀ u', ({ s with a0 := src, a1 := n, a2 := dst } : State).source u' = s.source u' :=
    State.source_congr rfl rfl
  have hunit : ((s.source u).after n.toNat).unit = u := by simp
  refine ⟨_, exec_encrypt hsrc hdst, ?_⟩
  rw [hsource]
  exact ⟨completed_source_self _ _ _ hunit, fun u' hu => (completed_source_of_ne _ _ _ hunit hu).trans (hsource u'),
    rfl, rfl, completed_err .., completed_cfg ..⟩

/-- Settles O33: the second command starts from the unit and the memory the first completed with. -/
theorem xorStreamsOverConsecutiveRanges : Obligations.XorStreamsOverConsecutiveRanges := by
  unfold Obligations.XorStreamsOverConsecutiveRanges
  intro u s n k hvalid hlen hsrc hdst
  obtain ⟨_, hsize⟩ := hvalid
  have hlt := s.a1.isLt
  have hn : (BitVec.ofNat 64 n).toNat = n := Nat.mod_eq_of_lt (by omega)
  have hk : (BitVec.ofNat 64 k).toNat = k := Nat.mod_eq_of_lt (by omega)
  obtain ⟨hsrc2, hsrcAddr⟩ := toNat_add_ofNat_of_le hsize (hlen ▸ hsrc)
  obtain ⟨hdst2, hdstAddr⟩ := toNat_add_ofNat_of_le hsize (hlen ▸ hdst)
  obtain ⟨t, hexec, hself, hother, hmem, hr0, herr, _⟩ := exec_encrypt_at u s hsrc hdst
  obtain ⟨t1, hexec1, hself1, hother1, hmem1, hr01, herr1, hcfg1⟩ :=
    exec_encrypt_at u s (src := s.a0) (n := BitVec.ofNat 64 n) (dst := s.a2) (by omega) (by omega)
  obtain ⟨t2, hexec2, hself2, hother2, hmem2, hr02, herr2, _⟩ :=
    exec_encrypt_at u t1 (src := s.a0 + BitVec.ofNat 64 n) (n := BitVec.ofNat 64 k) (dst := s.a2 + BitVec.ofNat 64 n)
      (by rwa [hk, hcfg1]) (by rwa [hk, hcfg1])
  have hsource : ∀ u', t2.source u' = t.source u' := fun u' => by
    by_cases hu : u' = u
    · rw [hu, hself2, hself1, hself, hn, hk, hlen, Source.after_add]
    · rw [hother2 u' hu, hother1 u' hu, hother u' hu]
  have hbytes : t2.mem = t.mem := by
    rw [hmem2, hmem1, hself1, hmem, hn, hk, hlen, xorLoop_add, xorLoop_fst,
      xorLoop_congr_addr _ _ hsrcAddr hdstAddr]
  obtain ⟨hcc, hcas⟩ := State.lanes_eq_of_source_eq hsource
  exact ⟨t, t1, t2, hexec, hexec1, hexec2, hcc, hcas, hbytes, by rw [hr02, hr01, hr0], by rw [herr2, herr1, herr]⟩

/-- Settles O34: the ciphertext does not reach the key, so both keyings give the unit the same contents and both commands
XOR the same keystream. -/
theorem decryptionRestoresThePlaintext : Obligations.DecryptionRestoresThePlaintext := by
  unfold Obligations.DecryptionRestoresThePlaintext
  intro u s keyAddr keyLen src n dst out hwf hkey hsrc hdst hout hsd hdo hapart
  obtain ⟨t1, hexec1, hself1, hmem1, hcfg1⟩ := exec_construct_at u s hkey
  rw [← hcfg1] at hkey hsrc hdst hout
  obtain ⟨t2, hexec2, _, _, hmem2, _, _, hcfg2⟩ := exec_encrypt_at u t1 hsrc hdst
  rw [← hcfg2] at hkey hdst hout
  obtain ⟨t3, hexec3, hself3, hmem3, hcfg3⟩ := exec_construct_at u t2 hkey
  rw [← hcfg3] at hdst hout
  obtain ⟨t4, hexec4, _, _, hmem4, _, _, _⟩ := exec_encrypt_at u t3 hdst hout
  have hwf1 : Memory.wf t1.mem := hmem1 ▸ hwf
  have hwf3 : Memory.wf t3.mem := hmem3 ▸ hmem2 ▸ (xorLoop_keeps _ _ _ _ hwf1).2
  have hkeyKept : t2.mem.readList keyAddr.toNat keyLen.toNat = s.mem.readList keyAddr.toNat keyLen.toNat := by
    rw [hmem2, ← hmem1]
    exact Memory.readList_congr fun i hi => xorLoop_frame _ _ _ _ hwf1 _ (by omega)
  have hkeystream : t3.source u = t1.source u := by rw [hself3, hself1, hkeyKept]
  have hdecrypt : Pseudo.decrypt.expand u = Pseudo.encrypt.expand u := by cases u <;> rfl
  refine ⟨t1, t2, t3, t4, hexec1, hexec2, hexec3, hdecrypt ▸ hexec4, Memory.readList_congr fun j hj => ?_⟩
  rw [hmem4, xorLoop_read_of_apart _ hwf3 hdo hj, hkeystream, hmem3, hmem2, xorLoop_read_of_apart _ hwf1 hsd hj, hmem1,
    BitVec.xor_assoc, BitVec.xor_self, BitVec.xor_zero]


/-! ### `RESET` and `STEP` -/

/-- `40_ciphercore.md` rule R106. -/
theorem exec_resetCc (s : State) : exec .resetCc s = .next (completed s (.cc .zero) s.mem s.r0) := rfl

/-- `41_cascaded.md` rule R135. -/
theorem exec_resetCas (s : State) : exec .resetCas s = .next (completed s (.cas .zero) s.mem s.r0) := rfl

/-- `40_ciphercore.md` rule R108. -/
theorem exec_stepCc (x : Byte) (s : State) : exec (.stepCc x) s =
    .next (completed s ((s.source .cc).step x).2 s.mem (((s.source .cc).step x).1.setWidth 64)) := rfl

/-- `41_cascaded.md` rule R137. -/
theorem exec_stepCas (x : Byte) (s : State) : exec (.stepCas x) s =
    .next (completed s ((s.source .cas).step x).2 s.mem (((s.source .cas).step x).1.setWidth 64)) := rfl

/-- Settles O23: the two words evaluated, and the lanes of a unit of all-zero lanes. -/
theorem resetCommandsZeroTheirUnit : Obligations.ResetCommandsZeroTheirUnit := by
  unfold Obligations.ResetCommandsZeroTheirUnit
  have hzero : (∀ j, Lane.zero.entry j = 0#8) ∧ Lane.zero.p = 0#8 ∧ Lane.zero.q = 0#8 := ⟨Lane.zero_entry, rfl, rfl⟩
  refine ⟨rfl, rfl, fun s => ⟨⟨.zero, exec_resetCc s, hzero⟩, ⟨.zero, exec_resetCas s, fun l hl => ?_⟩⟩⟩
  obtain rfl : l = Lane.zero := by simpa [Cascade.zero] using hl
  exact hzero

/-- The bits of `cmd32` at the sum of its widths, the form the library's lemmas on `++` speak of. -/
theorem getLsbD_cmd32 (op : BitVec 8) (u : Src) (ty : BitVec 3) (x : Byte) (i : Nat) :
    (cmd32 op u ty x).getLsbD i = (0#8 ++ x ++ 0#1 ++ ty ++ 0#3 ++ u.bit ++ op).getLsbD i := rfl

/-- `30_encoding.md` rules R70, R75: the operand of `STEP` stands in bits 23:16 of a word that has 0 there. -/
theorem cmd32_immField (op : BitVec 8) (u : Src) (ty : BitVec 3) (x : Byte) :
    cmd32 op u ty x = cmd32 op u ty 0#8 ||| (x.setWidth 32 <<< 16) := by
  refine BitVec.eq_of_getLsbD_eq fun i hi => ?_
  simp only [BitVec.getLsbD_or, getLsbD_cmd32, BitVec.getLsbD_append, BitVec.getLsbD_shiftLeft, BitVec.getLsbD_setWidth,
    BitVec.getLsbD_zero]
  grind

/-- Settles O29: a step of the cascade is one step of each lane on the output before it. -/
theorem stepCommandsReturnTheByte : Obligations.StepCommandsReturnTheByte := by
  unfold Obligations.StepCommandsReturnTheByte
  intro x s
  exact ⟨cmd32_immField 0x03#8 .cc 0#3 x, cmd32_immField 0x03#8 .cas 0#3 x, exec_stepCc x s, _, _, _, _, _, _, _, _,
    rfl, rfl, rfl, rfl, exec_stepCas x s⟩

/-! ### Memories that agree

`40_ciphercore.md` rule R111, `42_sampler.md` rule R174: each operation on `M` takes memories that agree where it reads to
memories that agree there and where it has written. -/

/-- Two memories in the canonical form hold the same bytes at the addresses of a set. -/
structure Memory.Agree (P : Nat → Prop) (m m' : Memory) : Prop where
  wf : Memory.wf m
  wf' : Memory.wf m'
  read : ∀ x, P x → m'.read x = m.read x

/-- Both runs of a loop of `PERM` or `SHUF` never end, or they leave the same unit contents and memories that agree. -/
abbrev LoopsAgree (P : Nat → Prop) : Option (Source × Memory) → Option (Source × Memory) → Prop :=
  Option.Rel fun r r' => r'.1 = r.1 ∧ Memory.Agree P r.2 r'.2

section

variable {P Q : Nat → Prop} {m m' : Memory} (h : Memory.Agree P m m')
include h

theorem Memory.Agree.mono (hQ : ∀ x, Q x → P x) : Memory.Agree Q m m' :=
  ⟨h.wf, h.wf', fun x hx => h.read x (hQ x hx)⟩

theorem Memory.Agree.readList {a n : Nat} (hP : ∀ x, inRange x a n → P x) : m'.readList a n = m.readList a n :=
  Memory.readList_congr fun i hi => h.read _ (hP _ ⟨by omega, by omega⟩)

theorem Memory.Agree.readBE {a n : Nat} (hP : ∀ x, inRange x a n → P x) : m'.readBE a n = m.readBE a n :=
  congrArg beNat (h.readList hP)

theorem Memory.Agree.write (a : Nat) (b : Byte) :
    Memory.Agree (fun x => P x ∨ x = a) (m.write a b) (m'.write a b) := by
  refine ⟨Memory.wf_write h.wf a b, Memory.wf_write h.wf' a b, fun x hx => ?_⟩
  rw [Memory.read_write h.wf, Memory.read_write h.wf']
  split
  · rfl
  next hne => exact h.read x (hx.resolve_right hne)

theorem Memory.Agree.writeBE (a n v : Nat) :
    Memory.Agree (fun x => P x ∨ inRange x a n) (m.writeBE a n v) (m'.writeBE a n v) := by
  refine ⟨Memory.wf_writeBE h.wf a n v, Memory.wf_writeBE h.wf' a n v, fun x hx => ?_⟩
  rw [Memory.writeBE, Memory.writeBE, Memory.read_writeList h.wf, Memory.read_writeList h.wf', length_beBytes]
  split
  · rfl
  next hout => exact h.read x (hx.resolve_right hout)

/-- The loop of `XOR` writes what it makes of the source bytes it reads. -/
theorem xorLoop_agree {n a d : Nat} (src : Source) (hP : ∀ x, inRange x a n → P x) :
    Memory.Agree (fun x => P x ∨ inRange x d n) (xorLoop n a d src m).2 (xorLoop n a d src m').2 := by
  induction n generalizing P a d src m m' with
  | zero => exact h.mono fun x hx => hx.resolve_right (by omega)
  | succ n ih =>
    rw [xorLoop, xorLoop, h.read a (hP a (by omega))]
    refine (ih (h.write d _) (a := a + 1) (d := d + 1) _ fun x hx => .inl (hP x (by omega))).mono ?_
    grind

/-- The copy of `SHUF` writes the source bytes it reads. -/
theorem copyLoop_agree {n a d : Nat} (hP : ∀ x, inRange x a n → P x) :
    Memory.Agree (fun x => P x ∨ inRange x d n) (copyLoop n a d m) (copyLoop n a d m') := by
  induction n generalizing P a d m m' with
  | zero => exact h.mono fun x hx => hx.resolve_right (by omega)
  | succ n ih =>
    rw [copyLoop, copyLoop, h.read a (hP a (by omega))]
    refine (ih (h.write d _) (a := a + 1) (d := d + 1) fun x hx => .inl (hP x (by omega))).mono ?_
    grind

/-- The zero fill of `PERM` reads nothing. -/
theorem zeroFill_agree (n base : Nat) :
    Memory.Agree (fun x => P x ∨ inRange x base (permEntryBytes * n)) (zeroFill n base m) (zeroFill n base m') := by
  induction n generalizing P base m m' with
  | zero => exact h.mono fun x hx => hx.resolve_right (by omega)
  | succ n ih =>
    refine (ih (h.writeBE base permEntryBytes 0) (base + permEntryBytes)).mono ?_
    grind

/-- A swap reads and writes its two ranges. -/
theorem swapBytes_agree {n x y : Nat} (hx : ∀ z, inRange z x n → P z) (hy : ∀ z, inRange z y n → P z) :
    Memory.Agree P (swapBytes n x y m) (swapBytes n x y m') := by
  induction n generalizing x y m m' with
  | zero => exact h
  | succ n ih =>
    rw [swapBytes, swapBytes, h.read x (hx x (by omega)), h.read y (hy y (by omega))]
    exact ih (((h.write x _).write y _).mono fun z hz => .inl (.inl hz)) (fun z hz => hx z (by omega))
      fun z hz => hy z (by omega)

/-- The draws of `PERM` do not depend on its entries, and it reads an entry only to write it elsewhere. -/
theorem permLoop_agree {steps i n base : Nat} (src : Source) (hsteps : steps ≤ n - i)
    (hP : ∀ x, inRange x base (permEntryBytes * n) → P x) :
    LoopsAgree P (permLoop steps i base src m) (permLoop steps i base src m') := by
  induction steps generalizing i src m m' with
  | zero => exact .some ⟨rfl, h⟩
  | succ steps ih =>
    rw [permLoop, permLoop]
    cases hdraw : uniformBelow src (i + 1) with
    | none => exact .none
    | some r =>
      have hj : r.1 < i + 1 := uniformBelow_lt i.succ_pos hdraw
      have hentry : ∀ x, inRange x (base + permEntryBytes * r.1) permEntryBytes → P x := fun x hx =>
        hP x (by simp only [permEntryBytes] at hx ⊢; omega)
      simp only [h.readBE hentry]
      exact ih (((h.writeBE _ _ _).writeBE _ _ _).mono fun x hx => .inl (.inl hx)) r.2 (by omega)

/-- The draws of `SHUF` do not depend on its elements. -/
theorem shufLoop_agree {esz base n i : Nat} (src : Source) (hi : i ≤ n - 1) (hP : ∀ x, inRange x base (n * esz) → P x) :
    LoopsAgree P (shufLoop esz base i src m) (shufLoop esz base i src m') := by
  induction i generalizing src m m' with
  | zero => exact .some ⟨rfl, h⟩
  | succ i ih =>
    rw [shufLoop, shufLoop]
    cases hdraw : uniformBelow src (i + 2) with
    | none => exact .none
    | some r =>
      have hj : r.1 < i + 2 := uniformBelow_lt (i + 1).succ_pos hdraw
      have helement : ∀ e < n, ∀ x, inRange x (base + e * esz) esz → P x := fun e he x hx =>
        hP x (by have := element_le esz he; omega)
      exact ih (swapBytes_agree h (helement (i + 1) (by omega)) (helement r.1 (by omega))) r.2 (by omega)

end

/-! ### Commands that fault (`60_exceptions.md`) -/

theorem checkRange_of_lt {s : State} {a n : Nat} (h : s.cfg.memBytes < a + n) : checkRange s a n = false :=
  decide_eq_false (Nat.not_le.2 h)

/-- `42_sampler.md` rules R157 to R167: an integer command is the sampler on its unit, its operand checked at its type. -/
theorem exec_of_samplerEntry {i : Instr} {sg : Signedness} {W : Nat} (hi : samplerEntry i = some (sg, W)) (s : State) :
    exec i s = .next (sampleTo (unitOf i) (argCheck sg W s.a0) s) := by
  cases i with
  | ubelowS _ | ubelowU _ | ugenU8 _ | ugenU16 _ | ugenU32 _ | ugenU64 _ | ugenI8 _ | ugenI16 _ | ugenI32 _ | ugenI64 _ =>
    cases hi
    rfl
  | resetCc | resetCas | keyCc | keyCas | stepCc _ | stepCas _ | xorCc | xorCas | readCc | readCas | perm _ | shuf _ =>
    cases hi

/-- `43_transfer_memory_system.md` rule R182: an integer command stores nothing. -/
theorem not_storesTo_of_samplerEntry {i : Instr} {r : Signedness × Nat} (hi : samplerEntry i = some r) (s : State)
    (a : Nat) : ¬storesTo i s a := by
  cases i with
  | ubelowS _ | ubelowU _ | ugenU8 _ | ugenU16 _ | ugenU32 _ | ugenU64 _ | ugenI8 _ | ugenI16 _ | ugenI32 _ | ugenI64 _ =>
    exact id
  | resetCc | resetCas | keyCc | keyCas | stepCc _ | stepCas _ | xorCc | xorCas | readCc | readCas | perm _ | shuf _ =>
    cases hi

theorem argCheck_signed_eq_invalid_iff {W : Nat} {a : Word64} :
    argCheck .signed W a = .invalid ↔ sgn64 a ≤ 0 ∨ sgn64 a > 2 ^ (W - 1) - 1 := by
  simp only [argCheck]
  split_ifs <;> simp_all

theorem argCheck_unsigned_eq_invalid_iff {W : Nat} {a : Word64} :
    argCheck .unsigned W a = .invalid ↔ a.toNat > 2 ^ W - 1 := by
  simp only [argCheck]
  split_ifs <;> simp_all

/-- `60_exceptions.md` rule R191, cases (b) to (d), is the argument check of the integer commands. -/
theorem argCheck_eq_invalid_iff {i : Instr} {sg : Signedness} {W : Nat} (hi : samplerEntry i = some (sg, W)) (s : State) :
    argCheck sg W s.a0 = .invalid ↔ invalidArgument i s := by
  cases i with
  | ubelowS _ | ugenI8 _ | ugenI16 _ | ugenI32 _ | ugenI64 _ =>
    cases hi
    exact argCheck_signed_eq_invalid_iff
  | ubelowU _ | ugenU8 _ | ugenU16 _ | ugenU32 _ | ugenU64 _ =>
    cases hi
    exact argCheck_unsigned_eq_invalid_iff
  | resetCc | resetCas | keyCc | keyCas | stepCc _ | stepCas _ | xorCc | xorCas | readCc | readCas | perm _ | shuf _ =>
    cases hi

/-- `60_exceptions.md` rule R191: the cases of `INVALID_ARGUMENT` raise it. -/
theorem exec_of_invalidArgument {i : Instr} {s : State} (h : invalidArgument i s) :
    exec i s = .next (s.raise .invalidArgument) := by
  cases i with
  | perm u => exact if_pos h
  | ubelowS _ | ubelowU _ | ugenU8 _ | ugenU16 _ | ugenU32 _ | ugenU64 _ | ugenI8 _ | ugenI16 _ | ugenI32 _ | ugenI64 _ =>
    rw [exec_of_samplerEntry rfl, (argCheck_eq_invalid_iff rfl s).2 h, sampleTo]
  | resetCc | resetCas | keyCc | keyCas | stepCc _ | stepCas _ | xorCc | xorCas | readCc | readCas | shuf _ => exact h.elim

/-- `60_exceptions.md` rules R193, R195: a range outside `M` raises `BOUNDS` once the argument check has passed. -/
theorem exec_of_rangeOutside {i : Instr} {s : State} (harg : ¬invalidArgument i s) (h : rangeOutside i s) :
    exec i s = .next (s.raise .bounds) := by
  cases i with
  | keyCc | keyCas => exact if_pos (checkRange_of_lt h)
  | readCc | readCas => exact congrArg Host.Outcome.next (if_pos (checkRange_of_lt h))
  | xorCc | xorCas =>
    simp only [exec, execXorCc, execXorCas, xorOn]
    obtain h | h := h
    · rw [if_pos (checkRange_of_lt h)]
    · rw [if_pos (checkRange_of_lt h), ite_self]
  | perm u => exact (if_neg harg).trans (if_pos (checkRange_of_lt h))
  | shuf u =>
    simp only [exec, execShuf]
    obtain h | h := h
    · rw [if_pos (checkRange_of_lt h)]
    · rw [if_pos (checkRange_of_lt h), ite_self]
  | resetCc | resetCas | stepCc _ | stepCas _
  | ubelowS _ | ubelowU _ | ugenU8 _ | ugenU16 _ | ugenU32 _ | ugenU64 _ | ugenI8 _ | ugenI16 _ | ugenI32 _ | ugenI64 _ =>
    exact h.elim

/-! ### `PERM` and `SHUF` with valid operands -/

/-- How a command ends whose draws gave a unit's contents and a memory, or never ended. -/
def State.endLoop (s : State) : Option (Source × Memory) → State
  | none => s.hang
  | some r => completed s r.1 r.2 s.r0

/-- `42_sampler.md` rule R170. -/
theorem exec_perm {u : Src} {s : State} (harg : ¬invalidArgument (.perm u) s) (hrange : ¬rangeOutside (.perm u) s) :
    exec (.perm u) s = .next (s.endLoop (permLoop ((sgn64 s.a0).toNat - 1) 1 s.a2.toNat (s.source u)
      (zeroFill (sgn64 s.a0).toNat s.a2.toNat s.mem))) := by
  have hdst : checkRange s s.a2.toNat (permEntryBytes * (sgn64 s.a0).toNat) = true :=
    checkRange_of_le (Nat.le_of_not_lt hrange)
  have hcount : ¬sgn64 s.a0 < 0 := harg
  rw [exec, execPerm, if_neg hcount, hdst, if_neg Bool.noConfusion]
  cases permLoop ((sgn64 s.a0).toNat - 1) 1 s.a2.toNat (s.source u) (zeroFill (sgn64 s.a0).toNat s.a2.toNat s.mem) with
  | none => rfl
  | some r => exact congrArg Host.Outcome.next (completed_r0_self s r.1 r.2)

/-- `42_sampler.md` rule R172. -/
theorem exec_shuf {u : Src} {s : State} (hrange : ¬rangeOutside (.shuf u) s) :
    exec (.shuf u) s = .next (s.endLoop (shufLoop s.a3.toNat s.a2.toNat (s.a1.toNat - 1) (s.source u)
      (copyLoop (s.a1.toNat * s.a3.toNat) s.a0.toNat s.a2.toNat s.mem))) := by
  obtain ⟨hsrc, hdst⟩ := not_or.1 hrange
  rw [exec, execShuf, checkRange_of_le (Nat.le_of_not_lt hsrc), checkRange_of_le (Nat.le_of_not_lt hdst),
    if_neg Bool.noConfusion, if_neg Bool.noConfusion]
  cases shufLoop s.a3.toNat s.a2.toNat (s.a1.toNat - 1) (s.source u)
      (copyLoop (s.a1.toNat * s.a3.toNat) s.a0.toNat s.a2.toNat s.mem) with
  | none => rfl
  | some r => exact congrArg Host.Outcome.next (completed_r0_self s r.1 r.2)

/-! ### Two runs of a command on the same inputs -/

/-- What a command reads is the same in two states: the parameter, the operand registers, the contents of its unit and the bytes
of `M` it uses. -/
structure SameReads (i : Instr) (s s' : State) : Prop where
  cfg : s'.cfg = s.cfg
  operand : ∀ k, s'.operand k = s.operand k
  source : s'.source (unitOf i) = s.source (unitOf i)
  mem : Memory.Agree (readsFrom i s) s.mem s'.mem

@[simp] theorem State.raise_source (s : State) (f : Trap) (u : Src) : (s.raise f).source u = s.source u :=
  State.source_congr rfl rfl u

@[simp] theorem State.hang_source (s : State) (u : Src) : s.hang.source u = s.source u := State.source_congr rfl rfl u

/-- Two runs of a command answer alike: both raise the fault there is a cause for, or never end, or complete with the same unit
contents, result and stored bytes. -/
inductive SameAnswer (i : Instr) (s s' : State) : State → State → Prop where
  | raise (f : Trap) (hf : invalidArgument i s ∨ rangeOutside i s) : SameAnswer i s s' (s.raise f) (s'.raise f)
  | hang : SameAnswer i s s' s.hang s'.hang
  | completed (src : Source) {m m' : Memory} {v v' : Word64} (hu : src.unit = unitOf i)
      (hm : Memory.Agree (storesTo i s) m m') (hv : hasResult i = true → v' = v) :
      SameAnswer i s s' (completed s src m v) (completed s' src m' v')

section

variable {i : Instr} {s s' : State} (h : SameReads i s s')
include h

theorem SameReads.a0 : s'.a0 = s.a0 := h.operand .a0

theorem SameReads.a1 : s'.a1 = s.a1 := h.operand .a1

theorem SameReads.a2 : s'.a2 = s.a2 := h.operand .a2

theorem SameReads.a3 : s'.a3 = s.a3 := h.operand .a3

/-- Whether an argument is invalid depends on the operand registers only. -/
theorem SameReads.invalidArgument_iff : invalidArgument i s' ↔ invalidArgument i s := by
  simp only [invalidArgument, h.a0]

/-- Whether a range lies in `M` depends on the operand registers and the parameter only. -/
theorem SameReads.rangeOutside_iff : rangeOutside i s' ↔ rangeOutside i s := by
  simp only [rangeOutside, h.cfg, h.a0, h.a1, h.a2, h.a3]

/-- A command that stores nothing completes with the same unit contents and result. -/
theorem SameReads.sameAnswer_of_no_store {src : Source} (hu : src.unit = unitOf i) (hstores : ∀ a, ¬storesTo i s a)
    {v v' : Word64} (hv : hasResult i = true → v' = v) :
    SameAnswer i s s' (completed s src s.mem v) (completed s' src s'.mem v') :=
  .completed src hu (h.mem.mono fun a ha => absurd ha (hstores a)) hv

/-- The draws of an integer command depend on its unit and its operand only. -/
theorem SameReads.sameAnswer_sampleTo {arg : ArgResult} (harg : arg ≠ .invalid) (hstores : ∀ a, ¬storesTo i s a) :
    SameAnswer i s s' (sampleTo (unitOf i) arg s) (sampleTo (unitOf i) arg s') := by
  cases arg with
  | invalid => exact absurd rfl harg
  | degenerate =>
    have hzero : ∀ r : State, sampleTo (unitOf i) .degenerate r = completed r (r.source (unitOf i)) r.mem 0#64 := fun r => by
      rw [completed, State.putSource_source]
      rfl
    rw [hzero, hzero, h.source]
    exact h.sameAnswer_of_no_store (s.source_unit _) hstores fun _ => rfl
  | valid max =>
    simp only [sampleTo, h.source]
    cases hdraw : uniformBelow (s.source (unitOf i)) max with
    | none => exact .hang
    | some r =>
      have hunit : r.2.unit = unitOf i := (uniformBelow_unit hdraw).trans (s.source_unit _)
      have hdrawn : ∀ q : State, ((q.putSource r.2).setR0 (BitVec.ofNat 64 r.1)).complete =
          completed q r.2 q.mem (BitVec.ofNat 64 r.1) := fun q => by cases r.2 <;> rfl
      simp only [hdrawn]
      exact h.sameAnswer_of_no_store hunit hstores fun _ => rfl

end

/-- Loops that agree end a command alike. -/
theorem SameAnswer.endLoop {i : Instr} {s s' : State} {o o' : Option (Source × Memory)}
    (h : LoopsAgree (storesTo i s) o o') (hu : ∀ r, o = some r → r.1.unit = unitOf i) (hv : hasResult i = false) :
    SameAnswer i s s' (s.endLoop o) (s'.endLoop o') := by
  cases h with
  | none => exact .hang
  | @some r r' hr =>
    obtain ⟨hsrc, hm⟩ := hr
    simp only [State.endLoop, hsrc]
    exact .completed r.1 (hu r rfl) hm (by simp [hv])

section

variable {u : Src} {s s' : State}

/-- `40_ciphercore.md` rule R112, `41_cascaded.md` rule R141: `KEY` uses the bytes of the key. -/
theorem SameReads.sameAnswer_construct (h : SameReads (Pseudo.construct.expand u) s s')
    (hkey : s.a0.toNat + s.a1.toNat ≤ s.cfg.memBytes) :
    ∃ t t', exec (Pseudo.construct.expand u) s = .next t ∧ exec (Pseudo.construct.expand u) s' = .next t' ∧
      SameAnswer (Pseudo.construct.expand u) s s' t t' := by
  have hkey' : s'.a0.toNat + s'.a1.toNat ≤ s'.cfg.memBytes := by rwa [h.a0, h.a1, h.cfg]
  have hunit : unitOf (Pseudo.construct.expand u) = u := by cases u <;> rfl
  refine ⟨_, _, exec_construct hkey, exec_construct hkey', ?_⟩
  rw [h.a0, h.a1, h.mem.readList (by cases u <;> exact fun _ => id)]
  exact h.sameAnswer_of_no_store (by rw [Source.unit_keyed, hunit]) (by cases u <;> exact fun _ => id)
    (by cases u <;> exact nofun)

/-- `XOR` uses its unit and the bytes of its source. -/
theorem SameReads.sameAnswer_encrypt (h : SameReads (Pseudo.encrypt.expand u) s s')
    (hsrc : s.a0.toNat + s.a1.toNat ≤ s.cfg.memBytes) (hdst : s.a2.toNat + s.a1.toNat ≤ s.cfg.memBytes) :
    ∃ t t', exec (Pseudo.encrypt.expand u) s = .next t ∧ exec (Pseudo.encrypt.expand u) s' = .next t' ∧
      SameAnswer (Pseudo.encrypt.expand u) s s' t t' := by
  have hsrc' : s'.a0.toNat + s'.a1.toNat ≤ s'.cfg.memBytes := by rwa [h.a0, h.a1, h.cfg]
  have hdst' : s'.a2.toNat + s'.a1.toNat ≤ s'.cfg.memBytes := by rwa [h.a2, h.a1, h.cfg]
  have hunit : unitOf (Pseudo.encrypt.expand u) = u := by cases u <;> rfl
  have hsource : s'.source u = s.source u := hunit ▸ h.source
  refine ⟨_, _, exec_encrypt hsrc hdst, exec_encrypt hsrc' hdst', ?_⟩
  rw [h.a0, h.a1, h.a2, hsource]
  exact .completed _ (by rw [Source.unit_after, State.source_unit, hunit])
    ((xorLoop_agree h.mem _ (by cases u <;> exact fun _ => id)).mono (by cases u <;> exact fun _ => .inr))
    (by cases u <;> exact nofun)

/-- `READ` uses its unit and the bytes its buffer held. -/
theorem SameReads.sameAnswer_fill (h : SameReads (Pseudo.fill.expand u) s s')
    (hbuf : s.a0.toNat + s.a1.toNat ≤ s.cfg.memBytes) :
    ∃ t t', exec (Pseudo.fill.expand u) s = .next t ∧ exec (Pseudo.fill.expand u) s' = .next t' ∧
      SameAnswer (Pseudo.fill.expand u) s s' t t' := by
  have hbuf' : s'.a0.toNat + s'.a1.toNat ≤ s'.cfg.memBytes := by rwa [h.a0, h.a1, h.cfg]
  have hunit : unitOf (Pseudo.fill.expand u) = u := by cases u <;> rfl
  have hsource : s'.source u = s.source u := hunit ▸ h.source
  refine ⟨_, _, exec_fill hbuf, exec_fill hbuf', ?_⟩
  rw [h.a0, h.a1, hsource]
  exact .completed _ (by rw [Source.unit_after, State.source_unit, hunit])
    ((xorLoop_agree h.mem _ (by cases u <;> exact fun _ => id)).mono (by cases u <;> exact fun _ => .inr)) fun _ => rfl

/-- `PERM` uses its unit and its operands: it reads only entries it has filled. -/
theorem SameReads.sameAnswer_perm (h : SameReads (.perm u) s s') (harg : ¬invalidArgument (.perm u) s)
    (hrange : ¬rangeOutside (.perm u) s) :
    ∃ t t', exec (.perm u) s = .next t ∧ exec (.perm u) s' = .next t' ∧ SameAnswer (.perm u) s s' t t' := by
  have hsource : s'.source u = s.source u := h.source
  refine ⟨_, _, exec_perm harg hrange, exec_perm (mt h.invalidArgument_iff.1 harg) (mt h.rangeOutside_iff.1 hrange), ?_⟩
  rw [h.a0, h.a2, hsource]
  have hfilled := (zeroFill_agree h.mem (sgn64 s.a0).toNat s.a2.toNat).mono fun x => Or.inr
  exact .endLoop (permLoop_agree hfilled _ le_rfl fun _ => id) (fun r hr => (permLoop_unit hr).trans (s.source_unit u)) rfl

/-- `SHUF` uses its unit and the bytes of its source: the copy fills its destination. -/
theorem SameReads.sameAnswer_shuf (h : SameReads (.shuf u) s s') (hrange : ¬rangeOutside (.shuf u) s) :
    ∃ t t', exec (.shuf u) s = .next t ∧ exec (.shuf u) s' = .next t' ∧ SameAnswer (.shuf u) s s' t t' := by
  have hsource : s'.source u = s.source u := h.source
  refine ⟨_, _, exec_shuf hrange, exec_shuf (mt h.rangeOutside_iff.1 hrange), ?_⟩
  rw [h.a0, h.a1, h.a2, h.a3, hsource]
  have hcopied := (copyLoop_agree h.mem (d := s.a2.toNat) fun _ => id).mono fun x => Or.inr
  exact .endLoop (shufLoop_agree hcopied _ le_rfl fun _ => id) (fun r hr => (shufLoop_unit hr).trans (s.source_unit u)) rfl

end

/-- A command with valid operands answers alike in two states in which what it reads is the same. -/
theorem exec_sameAnswer_of_valid {i : Instr} {s s' : State} (h : SameReads i s s') (harg : ¬invalidArgument i s)
    (hrange : ¬rangeOutside i s) : ∃ t t', exec i s = .next t ∧ exec i s' = .next t' ∧ SameAnswer i s s' t t' := by
  cases i with
  | resetCc => exact ⟨_, _, exec_resetCc s, exec_resetCc s', h.sameAnswer_of_no_store rfl (fun _ => id) nofun⟩
  | resetCas => exact ⟨_, _, exec_resetCas s, exec_resetCas s', h.sameAnswer_of_no_store rfl (fun _ => id) nofun⟩
  | keyCc => exact h.sameAnswer_construct (u := .cc) (Nat.le_of_not_lt hrange)
  | keyCas => exact h.sameAnswer_construct (u := .cas) (Nat.le_of_not_lt hrange)
  | stepCc x =>
    refine ⟨_, _, exec_stepCc x s, exec_stepCc x s', ?_⟩
    rw [show s'.source .cc = s.source .cc from h.source]
    exact h.sameAnswer_of_no_store rfl (fun _ => id) fun _ => rfl
  | stepCas x =>
    refine ⟨_, _, exec_stepCas x s, exec_stepCas x s', ?_⟩
    rw [show s'.source .cas = s.source .cas from h.source]
    exact h.sameAnswer_of_no_store rfl (fun _ => id) fun _ => rfl
  | xorCc =>
    obtain ⟨hsrc, hdst⟩ := not_or.1 hrange
    exact h.sameAnswer_encrypt (u := .cc) (Nat.le_of_not_lt hsrc) (Nat.le_of_not_lt hdst)
  | xorCas =>
    obtain ⟨hsrc, hdst⟩ := not_or.1 hrange
    exact h.sameAnswer_encrypt (u := .cas) (Nat.le_of_not_lt hsrc) (Nat.le_of_not_lt hdst)
  | readCc => exact h.sameAnswer_fill (u := .cc) (Nat.le_of_not_lt hrange)
  | readCas => exact h.sameAnswer_fill (u := .cas) (Nat.le_of_not_lt hrange)
  | ubelowS _ | ubelowU _ | ugenU8 _ | ugenU16 _ | ugenU32 _ | ugenU64 _ | ugenI8 _ | ugenI16 _ | ugenI32 _ | ugenI64 _ =>
    refine ⟨_, _, exec_of_samplerEntry rfl s, exec_of_samplerEntry rfl s', ?_⟩
    rw [h.a0]
    exact h.sameAnswer_sampleTo (mt (argCheck_eq_invalid_iff rfl s).1 harg) (not_storesTo_of_samplerEntry rfl s)
  | perm u => exact h.sameAnswer_perm harg hrange
  | shuf u => exact h.sameAnswer_shuf hrange

/-- A command answers alike in two states in which what it reads is the same. -/
theorem exec_sameAnswer {i : Instr} {s s' : State} (h : SameReads i s s') :
    ∃ t t', exec i s = .next t ∧ exec i s' = .next t' ∧ SameAnswer i s s' t t' := by
  by_cases harg : invalidArgument i s
  · exact ⟨_, _, exec_of_invalidArgument harg, exec_of_invalidArgument (h.invalidArgument_iff.2 harg),
      .raise _ (.inl harg)⟩
  have harg' := mt h.invalidArgument_iff.1 harg
  by_cases hrange : rangeOutside i s
  · exact ⟨_, _, exec_of_rangeOutside harg hrange, exec_of_rangeOutside harg' (h.rangeOutside_iff.2 hrange),
      .raise _ (.inr hrange)⟩
  · exact exec_sameAnswer_of_valid h harg hrange

/-- Settles O53: in two states in which what a command reads is the same it answers alike, and of answers that are alike the
statement can be read off. -/
theorem effectsDependOnlyOnWhatIsRead : Obligations.EffectsDependOnlyOnWhatIsRead := by
  unfold Obligations.EffectsDependOnlyOnWhatIsRead
  intro i s s' hwf hwf' hcfg hoperand hsource hread
  obtain ⟨t, t', hexec, hexec', hanswer⟩ := exec_sameAnswer ⟨hcfg, hoperand, hsource, hwf, hwf', hread⟩
  refine ⟨t, t', hexec, hexec', ?_⟩
  cases hanswer with
  | raise f hf =>
    have hunit : (s'.raise f).source (unitOf i) = (s.raise f).source (unitOf i) := by simpa using hsource
    exact ⟨rfl, hunit, fun _ _ => ⟨rfl, fun _ => rfl⟩, fun _ harg hrange => absurd hf (not_or.2 ⟨harg, hrange⟩)⟩
  | hang =>
    have hunit : s'.hang.source (unitOf i) = s.hang.source (unitOf i) := by simpa using hsource
    exact ⟨rfl, hunit, fun herr herr' => ⟨herr'.trans herr.symm, fun ht => by simp [herr] at ht⟩, nofun⟩
  | completed src hu hm hv =>
    refine ⟨rfl, ?_, fun herr herr' => ?_, fun _ _ _ => ⟨hv, hm.read⟩⟩
    · rw [completed_source_self _ _ _ hu, completed_source_self _ _ _ hu]
    · rw [completed_err, completed_err, herr, herr']
      exact ⟨rfl, nofun⟩

end Sys2Proof.Machine

/-! Keying the cascade (`41_cascaded.md` rules R132, R136, R140). The key of each lane has a name of its own, so that the four
lanes `KEY.CAS` leaves are one equation, and the statements about them are read off it. -/

namespace Sys2Proof.Machine

/-! ### The keystream operation of one lane -/

/-- Rule R104 byte by byte: the list returned. -/
theorem Lane.keystreamXor_fst (L : Lane) (buf : List Byte) : (L.keystreamXor buf).1 = encryptUnder L buf := by
  obtain ⟨hlane, _⟩ := keystreamXorIsBytewise
  exact (hlane L buf).1

/-- Rule R104: the lane advances by the length of the buffer. -/
theorem Lane.keystreamXor_snd (L : Lane) (buf : List Byte) :
    Source.cc (L.keystreamXor buf).2 = (Source.cc L).after buf.length := by
  obtain ⟨hlane, _⟩ := keystreamXorIsBytewise
  exact (hlane L buf).2

/-- Making keystream moves the lane as absorbing zeros does. -/
theorem Lane.keystreamXor_snd_eq_absorb (L : Lane) (buf : List Byte) :
    (L.keystreamXor buf).2 = L.absorb (List.replicate buf.length 0#8) := by
  induction buf generalizing L with
  | nil => rfl
  | cons b bs ih => exact ih _

theorem Lane.keystreamXor_p (L : Lane) (buf : List Byte) :
    (L.keystreamXor buf).2.p = L.p + BitVec.ofNat 8 buf.length := by
  rw [L.keystreamXor_snd_eq_absorb, Lane.absorb_p, List.length_replicate]

@[simp] theorem length_encryptUnder (L : Lane) (buf : List Byte) : (encryptUnder L buf).length = buf.length := by
  simp [encryptUnder]

/-! ### The keys of the four lanes -/

/-- The key of lane `i` (rule R132): the key itself for lane 0, and for each further lane the original key encrypted under the
lane before it. -/
def laneKey (key : List Byte) : Nat → List Byte
  | 0 => key
  | i + 1 => encryptUnder (keyedLane (laneKey key i)) key

/-- Rule R132: every derived key has the length of the original key. -/
@[simp] theorem length_laneKey (key : List Byte) (i : Nat) : (laneKey key i).length = key.length := by
  cases i with
  | zero => rfl
  | succ i => exact length_encryptUnder _ key

/-- Rule R136: of the empty key every derived key is empty. -/
@[simp] theorem laneKey_nil (i : Nat) : laneKey [] i = [] := List.eq_nil_of_length_eq_zero (length_laneKey [] i)

/-- A lane of the cascade once the next lane's key has been derived under it. -/
def derivedLane (key : List Byte) (i : Nat) : Lane := ((keyedLane (laneKey key i)).keystreamXor key).2

theorem derivedLane_after (key : List Byte) (i : Nat) :
    Source.cc (derivedLane key i) = (Source.cc (keyedLane (laneKey key i))).after key.length :=
  Lane.keystreamXor_snd _ key

/-- Rule R140: a lane that derived a key has made its own key's steps and as many again. -/
theorem derivedLane_p (key : List Byte) (i : Nat) : (derivedLane key i).p = BitVec.ofNat 8 (2 * key.length) := by
  rw [derivedLane, Lane.keystreamXor_p, keyedLane_p, length_laneKey, ← BitVec.ofNat_add, Nat.two_mul]

theorem derivedLane_nil (i : Nat) : derivedLane [] i = keyedLane [] := by
  rw [derivedLane, laneKey_nil, Lane.keystreamXor]

/-- Rule R132: lanes 0 to 2 each derive the key of the next, and lane 3 derives none. -/
theorem Cascade.construct_eq (c : Cascade) (key : List Byte) :
    c.construct key =
      { l0 := derivedLane key 0, l1 := derivedLane key 1, l2 := derivedLane key 2, l3 := keyedLane (laneKey key 3) } := by
  simp only [Cascade.construct, Lane.construct_eq_keyedLane, Lane.keystreamXor_fst]
  rfl

/-- `KEY.CAS` with its key in `M`: the four lanes, and nothing else but `BUSY`. -/
theorem exec_keyCas {s : State} {key : List Byte} (h : s.a0.toNat + s.a1.toNat ≤ s.cfg.memBytes)
    (hkey : s.mem.readList s.a0.toNat s.a1.toNat = key) :
    exec .keyCas s = .next { s with
      cas := { l0 := derivedLane key 0, l1 := derivedLane key 1, l2 := derivedLane key 2, l3 := keyedLane (laneKey key 3) },
      busy := false } := by
  rw [← hkey, ← Cascade.zero.construct_eq]
  exact exec_construct (u := .cas) h

/-- Settles O25: the lanes `KEY.CAS` leaves are keyed by the keys in chain, and each derivation advances its lane. -/
theorem keyCasKeysTheLanesInChain : Obligations.KeyCasKeysTheLanesInChain := by
  unfold Obligations.KeyCasKeysTheLanesInChain
  intro s h key L0 L1 L2 L3
  exact ⟨_, exec_keyCas h rfl, derivedLane_after key 0, derivedLane_after key 1, derivedLane_after key 2, rfl⟩

/-- Settles O26: lanes 0 to 2 have derived a key, lane 3 has not. -/
theorem cascadePositionsAfterKeying : Obligations.CascadePositionsAfterKeying := by
  unfold Obligations.CascadePositionsAfterKeying
  intro s h
  have hlen := s.mem.length_readList s.a0.toNat s.a1.toNat
  have hp (i : Nat) : (derivedLane (s.mem.readList s.a0.toNat s.a1.toNat) i).p = BitVec.ofNat 8 (2 * s.a1.toNat) := by
    rw [derivedLane_p, hlen]
  refine ⟨_, exec_keyCas h rfl, hp 0, hp 1, hp 2, ?_⟩
  rw [keyedLane_p, length_laneKey, hlen]

/-- Settles O27: the empty key derives only empty keys, in no steps. -/
theorem emptyKeyMakesEqualLanes : Obligations.EmptyKeyMakesEqualLanes := by
  unfold Obligations.EmptyKeyMakesEqualLanes
  intro s hlen h
  have hkey : s.mem.readList s.a0.toNat s.a1.toNat = [] := by
    rw [hlen]
    rfl
  have hrange : s.a0.toNat + s.a1.toNat ≤ s.cfg.memBytes := by simpa [hlen] using h
  refine ⟨_, exec_keyCas hrange hkey, ?_⟩
  simp only [derivedLane_nil, laneKey_nil, and_self]

end Sys2Proof.Machine

/-! The rejection sampler (`42_sampler.md` sections 2 and 3). One iteration is a function on pairs of a unit's contents and a draw
buffer (`drawStep`), and its iterates are the draws the text describes (`drawStep_iterate`). Up to the first accepted iteration no
pair repeats, and there are only as many pairs as the loop counts down, so the count loses no run (`FirstAccepted.lt_bound`). -/

namespace Sys2Proof.Machine

/-! ### Integers of byte lists -/

/-- The integer of a list split off its first byte, bit by bit: the form in which exclusive or is taken apart. -/
theorem testBit_beNat_cons (b : Byte) (bs : List Byte) (i : Nat) :
    (beNat (b :: bs)).testBit i =
      if i < 8 * bs.length then (beNat bs).testBit i else b.toNat.testBit (i - 8 * bs.length) := by
  have hpow : 256 ^ bs.length = 2 ^ (8 * bs.length) := by rw [Nat.pow_mul]
  rw [beNat_cons, Nat.mul_comm, hpow, Nat.testBit_two_pow_mul_add _ (hpow ▸ beNat_lt bs)]

theorem beNat_cons_xor (b c : Byte) {bs cs ds : List Byte} (hc : cs.length = bs.length) (hd : ds.length = bs.length)
    (h : beNat ds = beNat bs ^^^ beNat cs) : beNat ((b ^^^ c) :: ds) = beNat (b :: bs) ^^^ beNat (c :: cs) := by
  refine Nat.eq_of_testBit_eq fun i => ?_
  rw [Nat.testBit_xor, testBit_beNat_cons, testBit_beNat_cons, testBit_beNat_cons, h, hc, hd]
  split
  · exact Nat.testBit_xor ..
  · rw [BitVec.toNat_xor, Nat.testBit_xor]

/-- Equal lengths and equal integers: equal lists. -/
theorem beNat_injective {bs cs : List Byte} (hlen : bs.length = cs.length) (h : beNat bs = beNat cs) : bs = cs := by
  induction bs generalizing cs with
  | nil => exact (List.eq_nil_of_length_eq_zero hlen.symm).symm
  | cons b bs ih =>
    cases cs with
    | nil => cases hlen
    | cons c cs =>
      have hlen' : bs.length = cs.length := Nat.succ.inj hlen
      have hbs := beNat_lt bs
      have hcs := beNat_lt cs
      rw [hlen'] at hbs
      rw [beNat_cons, beNat_cons, hlen', Nat.mul_comm, Nat.mul_comm c.toNat] at h
      have hquot (n x : Nat) (hx : x < 256 ^ cs.length) : (256 ^ cs.length * n + x) / 256 ^ cs.length = n := by
        rw [Nat.mul_add_div (Nat.zero_lt_of_lt hx), Nat.div_eq_of_lt hx, Nat.add_zero]
      have hhead : b.toNat = c.toNat := by rw [← hquot b.toNat _ hbs, h, hquot _ _ hcs]
      rw [hhead] at h
      rw [BitVec.eq_of_toNat_eq hhead, ih hlen' (Nat.add_left_cancel h)]

theorem beNat_replicate_zero (k : Nat) : beNat (List.replicate k 0#8) = 0 := by
  induction k with
  | zero => rfl
  | succ k ih => rw [List.replicate_succ, beNat_cons, ih, BitVec.toNat_ofNat, Nat.zero_mod, Nat.zero_mul]

/-! ### One iteration of the rejection loop -/

/-- One iteration (`42_sampler.md` rule R152) on the pair of a unit's contents and a draw buffer: the buffer is drawn into,
not cleared. -/
def drawStep (x : Source × List Byte) : Source × List Byte := ((x.1.fill x.2).2, (x.1.fill x.2).1)

theorem drawLoop_succ (max bitLen fuel : Nat) (x : Source × List Byte) :
    drawLoop max bitLen (fuel + 1) x.1 x.2 =
      if candidate bitLen (drawStep x).2 < max then some (candidate bitLen (drawStep x).2, (drawStep x).1)
      else drawLoop max bitLen fuel (drawStep x).1 (drawStep x).2 := rfl

/-- A loop whose first accepted iteration lies within its count returns the candidate of it. -/
theorem drawLoop_of_first {max bitLen t fuel : Nat} {x : Source × List Byte} (ht : t < fuel)
    (hacc : candidate bitLen (drawStep^[t + 1] x).2 < max)
    (hrej : ∀ r < t, max ≤ candidate bitLen (drawStep^[r + 1] x).2) :
    drawLoop max bitLen fuel x.1 x.2 = some (candidate bitLen (drawStep^[t + 1] x).2, (drawStep^[t + 1] x).1) := by
  induction t generalizing fuel x with
  | zero =>
    obtain ⟨fuel, rfl⟩ := Nat.exists_eq_succ_of_ne_zero (Nat.ne_of_gt ht)
    exact (drawLoop_succ ..).trans (if_pos hacc)
  | succ t ih =>
    obtain ⟨fuel, rfl⟩ := Nat.exists_eq_succ_of_ne_zero (Nat.ne_zero_of_lt ht)
    have hfirst : max ≤ candidate bitLen (drawStep x).2 := hrej 0 t.succ_pos
    rw [drawLoop_succ, if_neg (Nat.not_lt.2 hfirst)]
    exact ih (x := drawStep x) (Nat.lt_of_succ_lt_succ ht) hacc fun r hr => hrej (r + 1) (Nat.succ_lt_succ hr)

theorem drawLoop_of_rejected {max bitLen fuel : Nat} {x : Source × List Byte}
    (hrej : ∀ r, max ≤ candidate bitLen (drawStep^[r + 1] x).2) : drawLoop max bitLen fuel x.1 x.2 = none := by
  induction fuel generalizing x with
  | zero => rfl
  | succ fuel ih =>
    have hfirst : max ≤ candidate bitLen (drawStep x).2 := hrej 0
    rw [drawLoop_succ, if_neg (Nat.not_lt.2 hfirst)]
    exact ih fun r => hrej (r + 1)

/-! ### The draws as integers (rules R152, R153) -/

theorem Source.keystream_after (src : Source) (n i : Nat) : (src.after n).keystream i = src.keystream (n + i) := by
  rw [Source.keystream, Source.keystream, Source.after_add]

/-- Drawing into a buffer is exclusive or of integers. -/
theorem beNat_fill (src : Source) (buf : List Byte) :
    beNat (src.fill buf).1 = beNat buf ^^^ beNat ((List.range buf.length).map src.keystream) := by
  induction buf generalizing src with
  | nil => exact (Nat.xor_self 0).symm
  | cons b bs ih =>
    rw [List.length_cons, List.range_succ_eq_map, List.map_cons, List.map_map]
    exact beNat_cons_xor b (src.step 0#8).1 (by simp) (by simp) (ih _)

/-- After `t` iterations from the buffer of `k` zeros: `t * k` steps made, and the buffer is the exclusive or of the draws. -/
theorem drawStep_iterate (src : Source) (k t : Nat) :
    (drawStep^[t] (src, List.replicate k 0#8)).1 = src.after (t * k) ∧
      (drawStep^[t] (src, List.replicate k 0#8)).2.length = k ∧
      beNat (drawStep^[t] (src, List.replicate k 0#8)).2 = src.drawnXor k t := by
  induction t with
  | zero => simp [Source.drawnXor, beNat_replicate_zero]
  | succ t ih =>
    obtain ⟨hsrc, hlen, hval⟩ := ih
    rw [Function.iterate_succ_apply', drawStep]
    refine ⟨?_, by rw [Source.length_fill, hlen], ?_⟩
    · rw [Source.fill_eq, hsrc, hlen, ← Source.after_add, Nat.succ_mul]
    · have hdrawn : (src.after (t * k)).keystream = fun i => src.keystream (t * k + i) :=
        funext (src.keystream_after (t * k))
      rw [beNat_fill, hval, hsrc, hlen, hdrawn]
      rfl

/-- The pair the sampler starts from (rule R152): the draw buffer is all zero. -/
def drawStart (src : Source) (max : Nat) : Source × List Byte := (src, List.replicate (drawBytes max) 0#8)

/-- The candidate of an iteration is the one the text describes. -/
theorem candidate_drawStep (src : Source) (max t : Nat) :
    candidate (bitlen (max - 1)) (drawStep^[t + 1] (drawStart src max)).2 = src.candidateAt max t := by
  obtain ⟨-, -, hval⟩ := drawStep_iterate src (drawBytes max) (t + 1)
  rw [candidate, drawStart, hval, Source.candidateAt]

/-! ### The bound of the loop loses no run (assumption 6) -/

/-- The 258 bytes of a lane (`10_state.md` rule R20). -/
def Lane.bytes (L : Lane) : List Byte := L.S.toList ++ [L.p, L.q]

/-- The bytes of the four lanes in order (rule R24). -/
def Cascade.bytes (c : Cascade) : List Byte := c.l0.bytes ++ c.l1.bytes ++ (c.l2.bytes ++ c.l3.bytes)

/-- The bytes of a unit's contents. -/
def Source.bytes : Source → List Byte
  | .cc l => l.bytes
  | .cas c => c.bytes

@[simp] theorem Lane.length_bytes (L : Lane) : L.bytes.length = 258 := by simp [Lane.bytes]

theorem Lane.bytes_injective {L L' : Lane} (h : L.bytes = L'.bytes) : L = L' := by
  obtain ⟨S, p, q⟩ := L
  obtain ⟨S', p', q'⟩ := L'
  obtain ⟨hS, hcursors⟩ := List.append_inj h (by simp)
  simp_all [Vector.toList_inj]

@[simp] theorem Cascade.length_bytes (c : Cascade) : c.bytes.length = 1032 := by simp [Cascade.bytes]

theorem Cascade.bytes_injective {c c' : Cascade} (h : c.bytes = c'.bytes) : c = c' := by
  obtain ⟨h01, h23⟩ := List.append_inj h (by simp)
  obtain ⟨h0, h1⟩ := List.append_inj h01 (by simp)
  obtain ⟨h2, h3⟩ := List.append_inj h23 (by simp)
  obtain ⟨l0, l1, l2, l3⟩ := c
  obtain ⟨l0', l1', l2', l3'⟩ := c'
  cases Lane.bytes_injective h0
  cases Lane.bytes_injective h1
  cases Lane.bytes_injective h2
  cases Lane.bytes_injective h3
  rfl

theorem Source.contentsCount_eq (src : Source) : src.contentsCount = 256 ^ src.bytes.length := by
  cases src with
  | cc l => rw [Source.bytes, Lane.length_bytes, Source.contentsCount]
  | cas c => rw [Source.bytes, Cascade.length_bytes, Source.contentsCount]

/-- Contents of the same unit with the same bytes are the same. -/
theorem Source.bytes_injective {src src' : Source} (hu : src.unit = src'.unit) (h : src.bytes = src'.bytes) :
    src = src' := by
  cases src with
  | cc l =>
    cases src' with
    | cc l' => rw [Lane.bytes_injective h]
    | cas c' => cases hu
  | cas c =>
    cases src' with
    | cc l' => cases hu
    | cas c' => rw [Cascade.bytes_injective h]

theorem Source.length_bytes_of_unit {src src' : Source} (hu : src.unit = src'.unit) :
    src.bytes.length = src'.bytes.length := by
  cases src with
  | cc l =>
    cases src' with
    | cc l' => simp [Source.bytes]
    | cas c' => cases hu
  | cas c =>
    cases src' with
    | cc l' => cases hu
    | cas c' => simp [Source.bytes]

/-- The number of a pair of a unit's contents and a draw buffer. -/
def drawNumber (x : Source × List Byte) : Nat := beNat (x.1.bytes ++ x.2)

theorem drawNumber_lt (x : Source × List Byte) : drawNumber x < x.1.contentsCount * 256 ^ x.2.length := by
  rw [Source.contentsCount_eq, ← Nat.pow_add, ← List.length_append]
  exact beNat_lt _

theorem drawNumber_injective {x y : Source × List Byte} (hu : x.1.unit = y.1.unit) (hlen : x.2.length = y.2.length)
    (h : drawNumber x = drawNumber y) : x = y := by
  have hbytes := Source.length_bytes_of_unit hu
  obtain ⟨hsrc, hbuf⟩ := List.append_inj (beNat_injective (by simp [hbytes, hlen]) h) hbytes
  exact Prod.ext (Source.bytes_injective hu hsrc) hbuf

/-- Up to its first visit to `P` a deterministic run repeats no value: a repetition would bring the visit forward. -/
theorem iterate_injOn_of_first {α : Type} (f : α → α) (x : α) (P : α → Prop) {t : Nat} (ht : P (f^[t + 1] x))
    (hfirst : ∀ r < t, ¬P (f^[r + 1] x)) : Set.InjOn (fun r => f^[r + 1] x) (Finset.range (t + 1)) := by
  have key : ∀ i j, i < j → j ≤ t → f^[i + 1] x ≠ f^[j + 1] x := fun i j hij hj heq => by
    refine hfirst (i + (t - j)) (by omega) ?_
    rw [show i + (t - j) + 1 = (t - j) + (i + 1) by omega, Function.iterate_add_apply, heq,
      ← Function.iterate_add_apply, show t - j + (j + 1) = t + 1 by omega]
    exact ht
  intro i hi j hj heq
  simp only [Finset.coe_range, Set.mem_Iio] at hi hj
  obtain hij | hij | hij := Nat.lt_trichotomy i j
  · exact absurd heq (key i j hij (by omega))
  · exact hij
  · exact absurd heq.symm (key j i hij (by omega))

/-- The first accepted iteration comes before the pairs of contents and buffer run out. -/
theorem FirstAccepted.lt_bound {src : Source} {max t : Nat} (h : FirstAccepted src max t) :
    t < src.contentsCount * 256 ^ drawBytes max := by
  obtain ⟨hacc, hrej⟩ := h
  have hunit (r : Nat) : (drawStep^[r + 1] (drawStart src max)).1.unit = src.unit := by
    obtain ⟨hsrc, -, -⟩ := drawStep_iterate src (drawBytes max) (r + 1)
    rw [drawStart, hsrc, Source.unit_after]
  have hlen (r : Nat) : (drawStep^[r + 1] (drawStart src max)).2.length = drawBytes max := by
    obtain ⟨-, hlen, -⟩ := drawStep_iterate src (drawBytes max) (r + 1)
    exact hlen
  have hinj := iterate_injOn_of_first drawStep (drawStart src max)
    (fun x => candidate (bitlen (max - 1)) x.2 < max) (t := t) (by rwa [candidate_drawStep])
    fun r hr => by rw [candidate_drawStep]; exact Nat.not_lt.2 (hrej r hr)
  have hcard := Finset.card_le_card_of_injOn (s := Finset.range (t + 1))
    (t := Finset.range (src.contentsCount * 256 ^ drawBytes max))
    (fun r => drawNumber (drawStep^[r + 1] (drawStart src max)))
    (fun r _ => by
      have hlt := drawNumber_lt (drawStep^[r + 1] (drawStart src max))
      rw [hlen, Source.contentsCount_eq, Source.length_bytes_of_unit (hunit r), ← Source.contentsCount_eq] at hlt
      simpa using hlt)
    fun i hi j hj heq => hinj hi hj
      (drawNumber_injective ((hunit i).trans (hunit j).symm) ((hlen i).trans (hlen j).symm) heq)
  rwa [Finset.card_range, Finset.card_range] at hcard

/-! ### `UniformBelow` -/

theorem bitlen_eq_zero_iff {v : Nat} : bitlen v = 0 ↔ v = 0 := by
  rw [bitlen]
  split
  next hv => exact iff_of_true rfl hv
  next hv => exact iff_of_false (Nat.succ_ne_zero _) hv

/-- The case `bit_len = 0` of rule R152 is a run of the loop on the empty buffer. -/
theorem uniformBelow_eq_drawLoop (src : Source) {max : Nat} (hmax : 1 ≤ max) :
    uniformBelow src max = drawLoop max (bitlen (max - 1)) (src.contentsCount * 256 ^ drawBytes max)
      (drawStart src max).1 (drawStart src max).2 := by
  rw [uniformBelow]
  split
  next hlen =>
    obtain rfl : max = 1 := by
      have := bitlen_eq_zero_iff.1 hlen
      omega
    have hfuel : src.contentsCount * 256 ^ drawBytes 1 ≠ 0 := by
      rw [Source.contentsCount_eq, ← Nat.pow_add]
      exact (Nat.pow_pos (by decide)).ne'
    obtain ⟨fuel, hfuel⟩ := Nat.exists_eq_succ_of_ne_zero hfuel
    rw [hfuel]
    rfl
  · rfl

theorem uniformBelow_of_first {src : Source} {max t : Nat} (hmax : 1 ≤ max) (h : FirstAccepted src max t) :
    uniformBelow src max = some (src.candidateAt max t, src.after ((t + 1) * drawBytes max)) := by
  have hbound := h.lt_bound
  obtain ⟨hacc, hrej⟩ := h
  obtain ⟨hsrc, -, -⟩ := drawStep_iterate src (drawBytes max) (t + 1)
  rw [uniformBelow_eq_drawLoop src hmax, drawLoop_of_first hbound (by rwa [candidate_drawStep])
    (fun r hr => by rw [candidate_drawStep]; exact hrej r hr), candidate_drawStep, drawStart, hsrc]

/-- Settles O35: the bound loses no run. -/
theorem uniformBelowReturnsFirstAccepted : Obligations.UniformBelowReturnsFirstAccepted := by
  unfold Obligations.UniformBelowReturnsFirstAccepted
  intro src max t hmax h
  exact uniformBelow_of_first hmax h

/-- Either some iteration is the first accepted, or none is ever. -/
theorem firstAccepted_or_neverAccepts (src : Source) (max : Nat) :
    (∃ t, FirstAccepted src max t) ∨ NeverAccepts src max := by
  by_cases h : ∃ t, src.candidateAt max t < max
  · exact .inl ⟨Nat.find h, Nat.find_spec h, fun r hr => Nat.not_lt.1 (Nat.find_min h hr)⟩
  · exact .inr fun t => Nat.not_lt.1 fun ht => h ⟨t, ht⟩

theorem uniformBelow_eq_none_iff (src : Source) {max : Nat} (hmax : 1 ≤ max) :
    uniformBelow src max = none ↔ NeverAccepts src max := by
  constructor
  · intro hnone
    obtain ⟨t, ht⟩ | hnever := firstAccepted_or_neverAccepts src max
    · rw [uniformBelow_of_first hmax ht] at hnone
      cases hnone
    · exact hnever
  · intro hnever
    rw [uniformBelow_eq_drawLoop src hmax]
    exact drawLoop_of_rejected fun r => (hnever r).trans_eq (candidate_drawStep src max r).symm

/-- Settles O36: a run that ends has a first accepted iteration, which the bound does not lose. -/
theorem uniformBelowNeverEndsExactly : Obligations.UniformBelowNeverEndsExactly := by
  unfold Obligations.UniformBelowNeverEndsExactly
  intro src max hmax
  exact uniformBelow_eq_none_iff src hmax

/-- Settles O37: `uniformBelow_lt`, and for `max = 1` no bit is drawn. -/
theorem uniformBelowIsBelowMax : Obligations.UniformBelowIsBelowMax := by
  unfold Obligations.UniformBelowIsBelowMax
  exact ⟨fun src src' max v hmax h => uniformBelow_lt hmax h, fun src => rfl⟩

/-! ### The bytes drawn and the width of a candidate (rules R154, R155) -/

theorem two_pow_bitlen_sub_one_le {v : Nat} (hv : v ≠ 0) : 2 ^ (bitlen v - 1) ≤ v := by
  rw [bitlen, if_neg hv]
  exact Nat.log2_self_le hv

theorem lt_two_pow_bitlen (v : Nat) : v < 2 ^ bitlen v := by
  rw [bitlen]
  split
  next hv => simp [hv]
  · exact Nat.lt_log2_self

theorem bitlen_pos {v : Nat} (hv : v ≠ 0) : 0 < bitlen v := Nat.pos_of_ne_zero (mt bitlen_eq_zero_iff.1 hv)

/-- Settles O39: `max - 1` has `bitlen (max - 1)` bits, the top one set, and `drawBytes max` is that number of bits in bytes. -/
theorem drawSizeFitsMax : Obligations.DrawSizeFitsMax := by
  unfold Obligations.DrawSizeFitsMax
  intro max hmax
  have hpos : max - 1 ≠ 0 := by omega
  have hbits := bitlen_pos hpos
  have hlow := two_pow_bitlen_sub_one_le hpos
  have hhigh := lt_two_pow_bitlen (max - 1)
  have hbytes (k : Nat) : 256 ^ k = 2 ^ (8 * k) := (Nat.pow_mul 2 8 k).symm
  have hfewer : 256 ^ (drawBytes max - 1) ≤ 2 ^ (bitlen (max - 1) - 1) :=
    hbytes _ ▸ Nat.pow_le_pow_right (by decide) (by rw [drawBytes]; omega)
  have hfit : 2 ^ bitlen (max - 1) ≤ 256 ^ drawBytes max :=
    hbytes _ ▸ Nat.pow_le_pow_right (by decide) (by rw [drawBytes]; omega)
  have hdouble : 2 ^ bitlen (max - 1) = 2 * 2 ^ (bitlen (max - 1) - 1) := by
    rw [← Nat.pow_succ', Nat.succ_eq_add_one, Nat.sub_add_cancel hbits]
  omega

/-! ### The two maskings (rule R153) -/

/-- The bits of the top byte that are kept. -/
abbrev topBits (bitLen : Nat) : Nat := if bitLen % 8 = 0 then 8 else bitLen % 8

theorem topBits_le (bitLen : Nat) : topBits bitLen ≤ 8 := by
  rw [topBits]
  split <;> omega

/-- The other bytes of the buffer are kept whole. -/
theorem eq_add_topBits {bitLen n : Nat} (hn : n + 1 = (bitLen + 7) / 8) :
    bitLen = 8 * n + topBits bitLen := by
  rw [topBits]
  split <;> omega

/-- Masking a byte reduces it. -/
theorem toNat_maskTop_byte (bitLen : Nat) (b : Byte) :
    (b &&& BitVec.ofNat 8 (2 ^ topBits bitLen - 1)).toNat = b.toNat % 2 ^ topBits bitLen := by
  have hle : 2 ^ topBits bitLen ≤ 2 ^ 8 := Nat.pow_le_pow_right (by decide) (topBits_le bitLen)
  have hpos : 0 < 2 ^ topBits bitLen := Nat.pow_pos (by decide)
  rw [BitVec.toNat_and, BitVec.toNat_ofNat, Nat.mod_eq_of_lt (by omega), Nat.and_two_pow_sub_one_eq_mod]

/-- On a buffer of as many bytes as `bitLen` bits need, masking the top byte reduces the integer to `bitLen` bits. -/
theorem beNat_maskTop {bitLen : Nat} {buf : List Byte} (hpos : 0 < bitLen) (hlen : buf.length = (bitLen + 7) / 8) :
    beNat (maskTop bitLen buf) = candidate bitLen buf := by
  cases buf with
  | nil =>
    rw [List.length_nil] at hlen
    omega
  | cons b bs =>
    rw [List.length_cons] at hlen
    have hsplit : 2 ^ bitLen = 256 ^ bs.length * 2 ^ topBits bitLen := by
      rw [show 256 = 2 ^ 8 from rfl, ← Nat.pow_mul, ← Nat.pow_add, ← eq_add_topBits hlen]
    have hlow := beNat_lt bs
    rw [maskTop, candidate, beNat_cons, beNat_cons, toNat_maskTop_byte, hsplit, Nat.mod_mul, Nat.mul_comm b.toNat,
      Nat.mul_add_mod, Nat.mod_eq_of_lt hlow, Nat.mul_add_div (Nat.zero_lt_of_lt hlow), Nat.div_eq_of_lt hlow,
      Nat.add_zero, Nat.mul_comm, Nat.add_comm]

/-- The bits masked off do not come back: drawing into a masked buffer and masking is masking what is drawn into the buffer. -/
theorem maskTop_fill_maskTop (bitLen : Nat) (src : Source) (buf : List Byte) :
    maskTop bitLen (src.fill (maskTop bitLen buf)).1 = maskTop bitLen (src.fill buf).1 ∧
      (src.fill (maskTop bitLen buf)).2 = (src.fill buf).2 := by
  cases buf with
  | nil => exact ⟨rfl, rfl⟩
  | cons b bs =>
    refine ⟨congrArg (· :: _) ?_, rfl⟩
    ext i
    simp only [BitVec.getElem_and, BitVec.getElem_xor, Bool.and_xor_distrib_right, Bool.and_assoc, Bool.and_self]

/-- The two loops in step: the buffer of the one is that of the other, masked. -/
theorem maskedLoop_eq_drawLoop {max bitLen fuel : Nat} (hpos : 0 < bitLen) (src : Source) {buf : List Byte}
    (hlen : buf.length = (bitLen + 7) / 8) :
    maskedLoop max bitLen fuel src (maskTop bitLen buf) = drawLoop max bitLen fuel src buf := by
  induction fuel generalizing src buf with
  | zero => rfl
  | succ fuel ih =>
    obtain ⟨hbuf, hsrc⟩ := maskTop_fill_maskTop bitLen src buf
    have hlen' : (src.fill buf).1.length = (bitLen + 7) / 8 := by rw [Source.length_fill, hlen]
    rw [maskedLoop, drawLoop]
    simp only [hbuf, hsrc, beNat_maskTop hpos hlen', ih _ hlen']

/-- Settles O38: the buffer of zeros is its own masking. -/
theorem maskingVariantsAgree : Obligations.MaskingVariantsAgree := by
  unfold Obligations.MaskingVariantsAgree
  intro max fuel src hmax
  have hpos : 0 < bitlen (max - 1) := bitlen_pos (by omega)
  have hzeros (k : Nat) : maskTop (bitlen (max - 1)) (List.replicate k 0#8) = List.replicate k 0#8 := by
    cases k with
    | zero => rfl
    | succ k => rw [List.replicate_succ, maskTop, BitVec.zero_and]
  have h := maskedLoop_eq_drawLoop (max := max) (fuel := fuel) hpos src
    (buf := List.replicate (drawBytes max) 0#8) List.length_replicate
  rwa [hzeros] at h

/-! ### The integer commands (rules R156 to R167) -/

theorem width_le_of_samplerEntry {i : Instr} {sg : Signedness} {W : Nat} (hi : samplerEntry i = some (sg, W)) : W ≤ 64 := by
  cases i with
  | ubelowS _ | ubelowU _ | ugenU8 _ | ugenU16 _ | ugenU32 _ | ugenU64 _ | ugenI8 _ | ugenI16 _ | ugenI32 _ | ugenI64 _ =>
    cases hi
    decide
  | resetCc | resetCas | keyCc | keyCas | stepCc _ | stepCas _ | xorCc | xorCas | readCc | readCas | perm _ | shuf _ =>
    cases hi

theorem sgn64_of_lt {v : Word64} (h : v.toNat < 2 ^ 63) : sgn64 v = v.toNat := if_pos h

/-- An operand from 1 to the largest value of the type passes the argument check as it stands. -/
theorem argCheck_eq_valid {sg : Signedness} {W : Nat} {a : Word64} (hW : W ≤ 64) (hpos : 1 ≤ a.toNat)
    (hmax : a.toNat ≤ typeMax sg W) : argCheck sg W a = .valid a.toNat := by
  cases sg with
  | signed =>
    have hmax' : a.toNat ≤ 2 ^ (W - 1) - 1 := hmax
    have hpow : 1 ≤ 2 ^ (W - 1) := Nat.one_le_two_pow
    have hpow' : 2 ^ (W - 1) ≤ 2 ^ 63 := Nat.pow_le_pow_right (by decide) (by omega)
    have hcast : ((2 ^ (W - 1) - 1 : Nat) : Int) = 2 ^ (W - 1) - 1 := by push_cast [hpow]; rfl
    rw [argCheck, sgn64_of_lt (by omega), if_neg (by omega), if_neg (by omega), Int.toNat_natCast]
  | unsigned =>
    have hmax' : a.toNat ≤ 2 ^ W - 1 := hmax
    rw [argCheck, if_neg (by omega), if_neg (by omega)]

/-- An integer command on an operand from 1 to the largest value of its type samples below the operand. -/
theorem exec_of_valid_sample {i : Instr} {sg : Signedness} {W : Nat} {s : State} (hi : samplerEntry i = some (sg, W))
    (hpos : 1 ≤ s.a0.toNat) (hmax : s.a0.toNat ≤ typeMax sg W) :
    exec i s = .next (sampleTo (unitOf i) (.valid s.a0.toNat) s) := by
  rw [exec_of_samplerEntry hi, argCheck_eq_valid (width_le_of_samplerEntry hi) hpos hmax]

/-- Settles O40: the sampler returns the first accepted candidate. -/
theorem integerCommandsReturnFirstAccepted : Obligations.IntegerCommandsReturnFirstAccepted := by
  unfold Obligations.IntegerCommandsReturnFirstAccepted
  intro i sg W t s hi hpos hmax hfirst
  rw [exec_of_valid_sample hi hpos hmax, sampleTo, uniformBelow_of_first hpos hfirst]
  rfl

/-- Settles O42: on such an operand the type is not looked at again, and the two 64-bit types are those of `UBELOW`. -/
theorem integerCommandsAgree : Obligations.IntegerCommandsAgree := by
  unfold Obligations.IntegerCommandsAgree
  refine ⟨fun i j sg sg' W W' s hi hj hunit hpos hmax hmax' => ?_, fun u s => ⟨rfl, rfl⟩⟩
  rw [exec_of_valid_sample hi hpos hmax, exec_of_valid_sample hj hpos hmax', hunit]

end Sys2Proof.Machine

/-! Permutation and shuffle (`42_sampler.md` section 4). Each step of either loop on lists is a swap, the insertion of a
permutation after the new element is put behind those before it; `PERM` on `M` is the loop on the list of its entries, and `SHUF`
on ranges that are equal or do not meet is the case of O58 in which the copy changes nothing it still reads. -/

namespace Sys2Proof.Machine

/-! ### The lists of `permutation` and `shuffle` (rules R169, R171) -/

/-- A swap rearranges, whatever the positions. -/
theorem swapElements_perm {α : Type} (r : List α) (i j : Nat) : (swapElements r i j).Perm r := by
  rw [swapElements]
  split
  next x y hx hy =>
    obtain ⟨hi, rfl⟩ := List.getElem?_eq_some_iff.1 hx
    obtain ⟨hj, rfl⟩ := List.getElem?_eq_some_iff.1 hy
    exact List.set_set_perm hi hj
  · exact .refl r

theorem shuffleLoop_perm {α : Type} {i : Nat} {src src' : Source} {seq r : List α}
    (h : shuffleLoop i src seq = some (r, src')) : r.Perm seq := by
  induction i generalizing src seq with
  | zero =>
    cases h
    exact .refl _
  | succ i ih =>
    simp only [shuffleLoop] at h
    split at h
    · cases h
    · exact (ih h).trans (swapElements_perm ..)

/-- Settles O44: every step of the loop is a swap. -/
theorem shuffleKeepsTheElements : Obligations.ShuffleKeepsTheElements := by
  unfold Obligations.ShuffleKeepsTheElements
  intro α src src' seq r h
  exact shuffleLoop_perm h

/-- Rule R169's two writes put `i` behind the first `i` elements and swap it with element `j` of the list so made. -/
theorem take_insert_eq_swapElements {l : List Nat} {i j : Nat} (hi : i < l.length) (hj : j ≤ i) :
    ((l.set i (l.getD j 0)).set j i).take (i + 1) = swapElements (l.take i ++ [i]) i j := by
  rw [swapElements_of_lt (by simp; omega) (by simp; omega)]
  refine List.ext_getElem (by simp; omega) fun k hk _ => ?_
  have hk' : k < i + 1 := by simp at hk; omega
  simp only [List.getElem_take, List.getElem_set, List.getD_eq_getElem l 0 (Nat.lt_of_le_of_lt hj hi), List.getElem_append]
  grind

theorem take_insert_perm {l : List Nat} {i j : Nat} (hi : i < l.length) (hj : j ≤ i)
    (h : (l.take i).Perm (List.range i)) :
    (((l.set i (l.getD j 0)).set j i).take (i + 1)).Perm (List.range (i + 1)) := by
  rw [take_insert_eq_swapElements hi hj, List.range_succ]
  exact (swapElements_perm ..).trans (h.append_right [i])

/-- The insertion loop keeps the first `i` elements a rearrangement of `0 .. i-1`, and the length. -/
theorem permutationLoop_perm {steps i : Nat} {src src' : Source} {l r : List Nat} (hlen : i + steps = l.length)
    (h : (l.take i).Perm (List.range i)) (hr : permutationLoop steps i src l = some (r, src')) :
    r.Perm (List.range l.length) := by
  induction steps generalizing i src l with
  | zero =>
    cases hr
    obtain rfl : i = r.length := hlen
    rwa [List.take_length] at h
  | succ steps ih =>
    simp only [permutationLoop] at hr
    split at hr
    · cases hr
    next j src1 hdraw =>
      have hj : j < i + 1 := uniformBelow_lt i.succ_pos hdraw
      have := ih (by simp; omega) (take_insert_perm (by omega) (Nat.le_of_lt_succ hj) h) hr
      simpa using this

/-- Settles O43: the list of zeros starts with `0`. -/
theorem permutationIsABijection : Obligations.PermutationIsABijection := by
  unfold Obligations.PermutationIsABijection
  refine ⟨fun src src' n r h => ?_, fun src => rfl⟩
  cases n with
  | zero =>
    cases h
    exact .refl _
  | succ n => simpa using permutationLoop_perm (i := 1) (by simp; omega) (by simp) h

/-! ### The entries of `PERM` (rule R170) -/

/-- The `n` entries of 8 bytes at `base`. -/
def entries (m : Memory) (base n : Nat) : List Nat :=
  (List.range n).map fun j => m.readBE (base + permEntryBytes * j) permEntryBytes

@[simp] theorem length_entries (m : Memory) (base n : Nat) : (entries m base n).length = n := by simp [entries]

theorem getElem_entries (m : Memory) (base n j : Nat) (h : j < (entries m base n).length) :
    (entries m base n)[j] = m.readBE (base + permEntryBytes * j) permEntryBytes := by simp [entries]

theorem getD_entries (m : Memory) (base : Nat) {n j : Nat} (h : j < n) :
    (entries m base n).getD j 0 = m.readBE (base + permEntryBytes * j) permEntryBytes := by
  rw [List.getD_eq_getElem _ _ (by simpa using h), getElem_entries]

theorem Memory.readBE_lt (m : Memory) (a n : Nat) : m.readBE a n < 256 ^ n := by
  have h := beNat_lt (m.readList a n)
  rwa [Memory.length_readList] at h

/-- Writing an entry sets it in the list of entries. -/
theorem entries_writeBE {m : Memory} (h : Memory.wf m) (base : Nat) {n e v : Nat} (hv : v < 256 ^ permEntryBytes) :
    entries (m.writeBE (base + permEntryBytes * e) permEntryBytes v) base n = (entries m base n).set e v := by
  refine List.ext_getElem (by simp) fun j hj _ => ?_
  rw [List.getElem_set, getElem_entries, getElem_entries]
  split
  next he => rw [← he, Memory.readBE_writeBE_self h, Nat.mod_eq_of_lt hv]
  next he => exact Memory.readBE_writeBE_of_disjoint h _ _ _ _ _ (by simp only [permEntryBytes]; omega)

/-- Every entry the zero fill writes is 0: a later one does not meet it. -/
theorem readBE_zeroFill {n j : Nat} (base : Nat) {m : Memory} (h : Memory.wf m) (hj : j < n) :
    (zeroFill n base m).readBE (base + permEntryBytes * j) permEntryBytes = 0 := by
  induction n generalizing base m j with
  | zero => omega
  | succ n ih =>
    have hwf := Memory.wf_writeBE h base permEntryBytes 0
    rw [zeroFill]
    cases j with
    | zero =>
      have hframe : (zeroFill n (base + permEntryBytes) (m.writeBE base permEntryBytes 0)).readBE base permEntryBytes =
          (m.writeBE base permEntryBytes 0).readBE base permEntryBytes :=
        congrArg beNat (Memory.readList_congr fun b hb => zeroFill_frame _ _ hwf _ (by omega))
      exact hframe.trans ((Memory.readBE_writeBE_self h ..).trans (Nat.zero_mod _))
    | succ j =>
      rw [show base + permEntryBytes * (j + 1) = base + permEntryBytes + permEntryBytes * j by ring]
      exact ih _ hwf (Nat.lt_of_succ_lt_succ hj)

theorem entries_zeroFill (n base : Nat) {m : Memory} (h : Memory.wf m) :
    entries (zeroFill n base m) base n = List.replicate n 0 := by
  refine List.ext_getElem (by simp) fun j hj _ => ?_
  rw [getElem_entries, List.getElem_replicate, readBE_zeroFill base h (by simpa using hj)]

/-- Rules R169, R170: the insertion loop on `M` makes the draws of the loop on the list of entries, ends when it ends, and
leaves the entries it gives. -/
theorem permutationLoop_entries {base n steps i : Nat} (hsteps : steps ≤ n - i) (hn : n ≤ 256 ^ permEntryBytes)
    (src : Source) {m : Memory} (h : Memory.wf m) :
    permutationLoop steps i src (entries m base n) =
      (permLoop steps i base src m).map fun r => (entries r.2 base n, r.1) := by
  induction steps generalizing i src m with
  | zero => rfl
  | succ steps ih =>
    rw [permutationLoop, permLoop]
    cases hdraw : uniformBelow src (i + 1) with
    | none => rfl
    | some r =>
      have hj : r.1 < i + 1 := uniformBelow_lt i.succ_pos hdraw
      have hwf := Memory.wf_writeBE h (base + permEntryBytes * i) permEntryBytes
        (m.readBE (base + permEntryBytes * r.1) permEntryBytes)
      simp only [getD_entries m base (show r.1 < n by omega), ← entries_writeBE h base (m.readBE_lt _ _),
        ← entries_writeBE hwf base (show i < 256 ^ permEntryBytes by omega)]
      exact ih (by omega) r.2 (Memory.wf_writeBE hwf _ _ _)

/-- The insertion loop of `PERM` on `n` entries writes only their range. -/
theorem permLoop_frame {steps i n base : Nat} {src : Source} {m : Memory} {r : Source × Memory} (h : Memory.wf m)
    (hsteps : steps ≤ n - i) (hr : permLoop steps i base src m = some r) {x : Nat}
    (hx : ¬inRange x base (permEntryBytes * n)) : r.2.read x = m.read x := by
  induction steps generalizing i src m with
  | zero =>
    cases hr
    rfl
  | succ steps ih =>
    simp only [permLoop] at hr
    split at hr
    · cases hr
    next j src' hdraw =>
      have hj : j < i + 1 := uniformBelow_lt i.succ_pos hdraw
      have outside : ∀ e < n, ¬(base + permEntryBytes * e ≤ x ∧ x < base + permEntryBytes * e + permEntryBytes) :=
        fun e he => by
          simp only [permEntryBytes] at hx ⊢
          omega
      have hwf := Memory.wf_writeBE h (base + permEntryBytes * i) permEntryBytes
        (m.readBE (base + permEntryBytes * j) permEntryBytes)
      rw [ih (Memory.wf_writeBE hwf _ _ _) (by omega) hr, Memory.read_writeBE_of_outside hwf _ _ _ _ (outside j (by omega)),
        Memory.read_writeBE_of_outside h _ _ _ _ (outside i (by omega))]

/-- An operand read as a signed integer and not negative is the unsigned one. -/
theorem toNat_sgn64_of_nonneg {v : Word64} (h : 0 ≤ sgn64 v) : (sgn64 v).toNat = v.toNat := by
  have hv := v.isLt
  unfold sgn64 at h ⊢
  split at h <;> split <;> omega

/-- Settles O45: the insertions on `M` make the list of entries the permutation. -/
theorem permWritesThePermutation : Obligations.PermWritesThePermutation := by
  unfold Obligations.PermWritesThePermutation
  intro u s r src' hwf hcount hdst hperm
  have hn := toNat_sgn64_of_nonneg hcount
  have hzero := zeroFill_wf s.a0.toNat s.a2.toNat hwf
  have hlt : s.a0.toNat ≤ 256 ^ permEntryBytes := s.a0.isLt.le
  rw [permutation, ← entries_zeroFill _ s.a2.toNat hwf, permutationLoop_entries le_rfl hlt _ hzero,
    Option.map_eq_some_iff] at hperm
  obtain ⟨⟨src, m⟩, hloop, hr⟩ := hperm
  cases hr
  have hexec : exec (.perm u) s = .next (completed s src m s.r0) := by
    rw [exec_perm (Int.not_lt.2 hcount) (by simpa [rangeOutside, hn] using hdst), hn, hloop, State.endLoop]
  have hunit : src.unit = u := by simpa using permLoop_unit hloop
  refine ⟨_, hexec, completed_source_self _ _ _ hunit, fun u' => completed_source_of_ne _ _ _ hunit,
    rfl, rfl, completed_err .., completed_errcode .., completed_sameInputs .., fun a ha => ?_, fun j hj => ?_⟩
  · exact (permLoop_frame hzero le_rfl hloop ha).trans (zeroFill_frame _ _ hwf _ ha)
  · exact (getD_entries m _ hj).symm

/-! ### `SHUF` on ranges that are equal or do not meet (rule R172) -/

/-- Then the ascending copy reads no byte it has written. -/
theorem copiedByte_of_apart {m : Memory} {src dst n j : Nat} (h : EqualOrDisjoint src dst n) (hj : j < n) :
    copiedByte m src dst j = m.read (src + j) := by
  rw [copiedByte]
  split
  · rw [Nat.mod_eq_of_lt (by omega)]
  · rfl

theorem elements_eq_copied {m : Memory} {src dst n esz : Nat} (h : EqualOrDisjoint src dst (n * esz)) :
    elements m src n esz =
      (List.range n).map fun i => (List.range esz).map fun b => copiedByte m src dst (i * esz + b) := by
  refine List.ext_getElem (by simp) fun i hi _ => List.ext_getElem (by simp) fun b hb _ => ?_
  have hlt := element_le esz (show i < n by simpa using hi)
  have hb' : b < esz := by simpa using hb
  simp [Memory.getElem_readList, Nat.add_assoc, copiedByte_of_apart h (show i * esz + b < n * esz by omega)]

/-- Elements in `M` are those of a list of as many, each as long, that agree byte by byte. -/
theorem elements_eq_of_read {m : Memory} {base n esz : Nat} {r : List (List Byte)} (hlen : r.length = n)
    (hesz : ∀ e ∈ r, e.length = esz)
    (h : ∀ i < n, ∀ b < esz, m.read (base + (i * esz + b)) = (r.getD i []).getD b 0#8) : elements m base n esz = r := by
  refine List.ext_getElem (by simp [hlen]) fun i hi hi' => ?_
  have hin : i < n := by simpa using hi
  refine List.ext_getElem (by simp [hesz]) fun b hb hb' => ?_
  have hbe : b < esz := by simpa using hb
  have hread := h i hin b hbe
  rw [List.getD_eq_getElem _ _ hi', List.getD_eq_getElem _ _ hb'] at hread
  simpa [Memory.getElem_readList, Nat.add_assoc] using hread

/-- Settles O46: `SHUF` shuffles what the copy left (O58), here the elements themselves, and a shuffle keeps their number and
lengths (O44). -/
theorem shufShufflesTheElements : Obligations.ShufShufflesTheElements := by
  unfold Obligations.ShufShufflesTheElements
  intro u s r src' hwf hsrc hdst hapart hshuffle
  have hperm : r.Perm _ := shuffleKeepsTheElements _ _ _ _ _ hshuffle
  rw [elements_eq_copied hapart] at hshuffle
  obtain ⟨t, hexec, hunit, hother, hr0, hbusy, herr, hcode, hinputs, hframe, hread⟩ :=
    shufShufflesTheCopyForEveryPlacement u s r src' hwf hsrc hdst hshuffle
  refine ⟨t, hexec, hunit, hother, hr0, hbusy, herr, hcode, hinputs, hframe, elements_eq_of_read ?_ ?_ hread⟩
  · simpa using hperm.length_eq
  · intro e he
    obtain ⟨i, -, rfl⟩ := List.mem_map.1 (hperm.subset he)
    exact Memory.length_readList ..

end Sys2Proof.Machine

/-! The transfer rules (`43_transfer_memory_system.md`): the bytes of `M` a command leaves as they were (rule R182), read off the
frames of the loops over `M`, and what the host's register accesses do while no command runs (rule R184). -/

namespace Sys2Proof.Machine

/-! ### The bytes of `M` a command leaves (rule R182) -/

section

variable {i : Instr} {u : Src} {s : State} {a : Nat}

/-- A command whose draws end leaves a byte its loops leave; one whose draws never end leaves every byte. -/
theorem State.endLoop_read {o : Option (Source × Memory)} (h : ∀ r, o = some r → r.2.read a = s.mem.read a) :
    (s.endLoop o).mem.read a = s.mem.read a := by
  cases o with
  | none => rfl
  | some r => exact h r rfl

/-- The zero fill and the insertions of `PERM` write only its entries. -/
theorem exec_perm_frame (hwf : Memory.wf s.mem) (harg : ¬invalidArgument (.perm u) s)
    (hrange : ¬rangeOutside (.perm u) s) (ha : ¬storesTo (.perm u) s a) :
    ∃ t, exec (.perm u) s = .next t ∧ t.mem.read a = s.mem.read a := by
  refine ⟨_, exec_perm harg hrange, State.endLoop_read fun r hr => ?_⟩
  exact (permLoop_frame (zeroFill_wf _ _ hwf) le_rfl hr ha).trans (zeroFill_frame _ _ hwf _ ha)

/-- The copy and the swaps of `SHUF` write only its destination. -/
theorem exec_shuf_frame (hwf : Memory.wf s.mem) (hrange : ¬rangeOutside (.shuf u) s) (ha : ¬storesTo (.shuf u) s a) :
    ∃ t, exec (.shuf u) s = .next t ∧ t.mem.read a = s.mem.read a := by
  refine ⟨_, exec_shuf hrange, State.endLoop_read fun r hr => ?_⟩
  exact (shufLoop_frame (copyLoop_wf _ _ _ hwf) le_rfl hr ha).trans (copyLoop_frame _ _ _ hwf _ ha)

/-- A command with valid operands changes no byte outside the range it stores to. -/
theorem exec_frame_of_valid (hwf : Memory.wf s.mem) (harg : ¬invalidArgument i s) (hrange : ¬rangeOutside i s)
    (ha : ¬storesTo i s a) : ∃ t, exec i s = .next t ∧ t.mem.read a = s.mem.read a := by
  cases i with
  | resetCc | resetCas | stepCc _ | stepCas _ => exact ⟨_, rfl, rfl⟩
  | keyCc => exact ⟨_, exec_construct (u := .cc) (Nat.le_of_not_lt hrange), rfl⟩
  | keyCas => exact ⟨_, exec_construct (u := .cas) (Nat.le_of_not_lt hrange), rfl⟩
  | xorCc =>
    obtain ⟨hsrc, hdst⟩ := not_or.1 hrange
    exact ⟨_, exec_encrypt (u := .cc) (Nat.le_of_not_lt hsrc) (Nat.le_of_not_lt hdst), xorLoop_frame _ _ _ _ hwf a ha⟩
  | xorCas =>
    obtain ⟨hsrc, hdst⟩ := not_or.1 hrange
    exact ⟨_, exec_encrypt (u := .cas) (Nat.le_of_not_lt hsrc) (Nat.le_of_not_lt hdst), xorLoop_frame _ _ _ _ hwf a ha⟩
  | readCc => exact ⟨_, exec_fill (u := .cc) (Nat.le_of_not_lt hrange), xorLoop_frame _ _ _ _ hwf a ha⟩
  | readCas => exact ⟨_, exec_fill (u := .cas) (Nat.le_of_not_lt hrange), xorLoop_frame _ _ _ _ hwf a ha⟩
  | ubelowS _ | ubelowU _ | ugenU8 _ | ugenU16 _ | ugenU32 _ | ugenU64 _ | ugenI8 _ | ugenI16 _ | ugenI32 _ | ugenI64 _ =>
    exact ⟨_, exec_of_samplerEntry rfl s, by rw [sampleTo_mem]⟩
  | perm u => exact exec_perm_frame hwf harg hrange ha
  | shuf u => exact exec_shuf_frame hwf hrange ha

/-- A command changes no byte outside the range it stores to: one that faults changes only `STATUS`. -/
theorem exec_frame (hwf : Memory.wf s.mem) (ha : ¬storesTo i s a) :
    ∃ t, exec i s = .next t ∧ t.mem.read a = s.mem.read a := by
  by_cases harg : invalidArgument i s
  · exact ⟨_, exec_of_invalidArgument harg, rfl⟩
  by_cases hrange : rangeOutside i s
  · exact ⟨_, exec_of_rangeOutside harg hrange, rfl⟩
  · exact exec_frame_of_valid hwf harg hrange ha

end

/-- Settles O52: the state a command answers with is the one of its frame. -/
theorem commandsStoreOnlyInTheirRange : Obligations.CommandsStoreOnlyInTheirRange := by
  unfold Obligations.CommandsStoreOnlyInTheirRange
  intro i s t a hwf hexec ha
  obtain ⟨t', hexec', hread⟩ := exec_frame hwf ha
  cases hexec'.symm.trans hexec
  exact hread

/-! ### The host's register accesses while no command runs (rule R184) -/

/-- `10_state.md` rule R29: `STATUS` with `BUSY` 0, its reserved bits 0. -/
theorem statusWord_of_not_busy {s : State} (h : s.busy = false) :
    statusWord s = 0#24 ++ s.errcode ++ 0#2 ++ BitVec.ofBool s.err ++ 0#1 := by
  rw [statusWord, h]
  rfl

/-- Settles O13: the access is the one performed; a read replies with the register's value, which for `STATUS` has `BUSY` 0, and
a write stores in the operand register it names or does nothing. -/
theorem registerAccessesFollowTheTable : Obligations.RegisterAccessesFollowTheTable := by
  unfold Obligations.RegisterAccessesFollowTheTable
  intro s a rest hbusy hpending
  have hstep : step s = perform a { s with pending := rest } := step_of_not_busy hbusy hpending
  refine ⟨?read, ?a0, ?a1, ?a2, ?a3, ?status, ?r0, ?reserved⟩
  case read =>
    rintro r rfl
    cases r with
    | status =>
      rw [← statusWord_of_not_busy hbusy]
      exact hstep
    | operand k => cases k <;> exact hstep
    | cmd | r0 | reserved => exact hstep
  all_goals
    rintro v rfl
    exact hstep

end Sys2Proof.Machine

/-! The faults of the block (`60_exceptions.md`). What raises each fault is one condition on the command and the state; a command
whose checks all pass leaves `ERR` as it was, so that no other answer is that of a fault. A halted block is described by what it
keeps of the state it halted in, which every access but hard reset preserves. -/

namespace Sys2Proof.Machine

/-! ### Raising a fault (rule R196) -/

/-- `10_state.md` rule R29: `STATUS` of a block that has just halted: the code of its fault, `ERR` 1, `BUSY` 0. -/
theorem statusWord_raise (s : State) (f : Trap) : statusWord (s.raise f) = 0#24 ++ f.code ++ 0#2 ++ 1#1 ++ 0#1 := rfl

theorem Trap.code_injective {f g : Trap} (h : f.code = g.code) : f = g := by
  revert h
  cases f <;> cases g <;> decide

/-- The state after a fault tells which fault it was. -/
theorem State.raise_injective {s : State} {f g : Trap} (h : s.raise f = s.raise g) : f = g :=
  Trap.code_injective (congrArg State.errcode h)

/-- Settles O17: `raise` is that update of the three fields, and `STATUS` is evaluated at each code. -/
theorem raisingWritesOnlyStatus : Obligations.RaisingWritesOnlyStatus := by
  unfold Obligations.RaisingWritesOnlyStatus
  intro s
  exact ⟨⟨rfl, statusWord_raise s .invalidArgument⟩, ⟨rfl, statusWord_raise s .illegalCommand⟩,
    ⟨rfl, statusWord_raise s .bounds⟩⟩

/-! ### Illegal words (rule R192) -/

/-- A word that selects no row of the opcode table is no command: the encoding of every command selects that command's row. -/
theorem decode_refuses_of_no_row {w : CmdWord} (h : ∀ r ∈ opcodeTable, w &&& r.mask ≠ r.pattern) :
    ∃ e, decode w = .error e := by
  rw [refuses_iff]
  rintro ⟨i, hw⟩
  obtain ⟨r, hr, _, hsel⟩ := encode_selects_its_row i
  rw [encodeRestoresDecodedWord w i hw] at hsel
  exact h r hr (of_decide_eq_true hsel)

theorem writeCmd_of_illegal {s : State} {w : CmdWord} {e : Illegal} (herr : s.err = false) (hw : decode w = .error e) :
    writeCmd w s = .next (s.raise .illegalCommand) := by
  simp [writeCmd, herr, hw]

/-- Settles O9: the write is the access performed, the word is refused, and raising the fault leaves `BUSY` as it was on an idle
block. -/
theorem illegalCommandIsRaised : Obligations.IllegalCommandIsRaised := by
  unfold Obligations.IllegalCommandIsRaised
  intro s w rest hidle hpending hrows
  obtain ⟨hbusy, herr⟩ := hidle
  obtain ⟨e, hw⟩ := decode_refuses_of_no_row hrows
  have hwrite : writeCmd w { s with pending := rest } = .next (State.raise { s with pending := rest } .illegalCommand) :=
    writeCmd_of_illegal herr hw
  rw [step_of_not_busy hbusy hpending, perform, hwrite, State.raise, ← hbusy]
  rfl

/-! ### What raises a fault (rules R191, R193, R195) -/

/-- The cause of each fault a command can raise: the ranges are checked once the argument check has passed. `ILLEGAL_COMMAND` is
raised by a word that is no command, never by a command. -/
def Trap.Cause (i : Instr) (s : State) : Trap → Prop
  | .invalidArgument => Machine.invalidArgument i s
  | .bounds => ¬Machine.invalidArgument i s ∧ rangeOutside i s
  | .illegalCommand => False

theorem Trap.Cause.exec_eq {i : Instr} {s : State} {f : Trap} (h : f.Cause i s) : exec i s = .next (s.raise f) := by
  cases f with
  | invalidArgument => exact exec_of_invalidArgument h
  | bounds =>
    obtain ⟨harg, hrange⟩ := h
    exact exec_of_rangeOutside harg hrange
  | illegalCommand => exact h.elim

theorem sampleTo_err {u : Src} {arg : ArgResult} {s : State} (h : arg ≠ .invalid) : (sampleTo u arg s).err = s.err := by
  cases arg with
  | invalid => exact absurd rfl h
  | degenerate => rfl
  | valid max =>
    simp only [sampleTo]
    split
    · rfl
    · simp

theorem State.endLoop_err (s : State) (o : Option (Source × Memory)) : (s.endLoop o).err = s.err := by
  cases o with
  | none => rfl
  | some r => exact completed_err s r.1 r.2 s.r0

/-- A command whose checks all pass raises no fault: it completes or never ends. -/
theorem exec_err_of_valid {i : Instr} {s : State} (harg : ¬invalidArgument i s) (hrange : ¬rangeOutside i s) :
    ∃ t, exec i s = .next t ∧ t.err = s.err := by
  cases i with
  | resetCc | resetCas | stepCc _ | stepCas _ => exact ⟨_, rfl, rfl⟩
  | keyCc => exact ⟨_, exec_construct (u := .cc) (Nat.le_of_not_lt hrange), completed_err _ _ _ _⟩
  | keyCas => exact ⟨_, exec_construct (u := .cas) (Nat.le_of_not_lt hrange), completed_err _ _ _ _⟩
  | xorCc =>
    obtain ⟨hsrc, hdst⟩ := not_or.1 hrange
    exact ⟨_, exec_encrypt (u := .cc) (Nat.le_of_not_lt hsrc) (Nat.le_of_not_lt hdst), completed_err _ _ _ _⟩
  | xorCas =>
    obtain ⟨hsrc, hdst⟩ := not_or.1 hrange
    exact ⟨_, exec_encrypt (u := .cas) (Nat.le_of_not_lt hsrc) (Nat.le_of_not_lt hdst), completed_err _ _ _ _⟩
  | readCc => exact ⟨_, exec_fill (u := .cc) (Nat.le_of_not_lt hrange), completed_err _ _ _ _⟩
  | readCas => exact ⟨_, exec_fill (u := .cas) (Nat.le_of_not_lt hrange), completed_err _ _ _ _⟩
  | ubelowS _ | ubelowU _ | ugenU8 _ | ugenU16 _ | ugenU32 _ | ugenU64 _ | ugenI8 _ | ugenI16 _ | ugenI32 _ | ugenI64 _ =>
    exact ⟨_, exec_of_samplerEntry rfl s, sampleTo_err (mt (argCheck_eq_invalid_iff rfl s).1 harg)⟩
  | perm u => exact ⟨_, exec_perm harg hrange, s.endLoop_err _⟩
  | shuf u => exact ⟨_, exec_shuf hrange, s.endLoop_err _⟩

/-- A command raises the fault there is a cause for, or leaves `ERR` as it was. -/
theorem exec_cause_or_err (i : Instr) (s : State) : (∃ f : Trap, f.Cause i s) ∨ ∃ t, exec i s = .next t ∧ t.err = s.err := by
  by_cases harg : invalidArgument i s
  · exact .inl ⟨.invalidArgument, harg⟩
  by_cases hrange : rangeOutside i s
  · exact .inl ⟨.bounds, harg, hrange⟩
  · exact .inr (exec_err_of_valid harg hrange)

/-- A block that is not halted raises a fault exactly when there is a cause for it. -/
theorem exec_eq_raise_iff {i : Instr} {s : State} (herr : s.err = false) (f : Trap) :
    exec i s = .next (s.raise f) ↔ f.Cause i s := by
  refine ⟨fun hexec => ?_, Trap.Cause.exec_eq⟩
  obtain ⟨g, hg⟩ | ⟨t, ht, hterr⟩ := exec_cause_or_err i s
  · have hfg : f = g := State.raise_injective (Host.Outcome.next.inj (hexec.symm.trans hg.exec_eq))
    exact hfg ▸ hg
  · obtain rfl : s.raise f = t := Host.Outcome.next.inj (hexec.symm.trans ht)
    rw [State.raise_err, herr] at hterr
    cases hterr

/-- `42_sampler.md` rule R156: 0 is the degenerate operand of every unsigned type. -/
theorem argCheck_unsigned_zero {W : Nat} {a : Word64} (h : a = 0#64) : argCheck .unsigned W a = .degenerate := by
  simp [argCheck, h]

/-- Settles O18: cases (a) to (d) are the cause of the fault, and 0 at an unsigned type passes the argument check. -/
theorem invalidArgumentExactly : Obligations.InvalidArgumentExactly := by
  unfold Obligations.InvalidArgumentExactly
  refine ⟨fun i s herr => exec_eq_raise_iff herr .invalidArgument, fun i W s hi ha => ?_⟩
  rw [exec_of_samplerEntry hi, argCheck_unsigned_zero ha]
  rfl

/-- Settles O19: the ranges of rule R193, behind the argument check, are the cause of the fault. -/
theorem boundsExactly : Obligations.BoundsExactly := by
  unfold Obligations.BoundsExactly
  exact fun i s herr => exec_eq_raise_iff herr .bounds

/-! ### Faults are precise (rule R197) -/

/-- Settles O20: of the shapes an answer can have, only those that raise a fault set `ERR`. -/
theorem faultsArePrecise : Obligations.FaultsArePrecise := by
  unfold Obligations.FaultsArePrecise
  intro i s t herr hexec hterr
  cases exec_shape hexec with
  | invalidArgument | bounds => rfl
  | hang => cases herr.symm.trans hterr
  | completed src m v _ _ =>
    rw [completed_err, herr] at hterr
    cases hterr

/-! ### A halted block (rules R198, R199) -/

/-- What is taken was issued, and so was what then waits. -/
theorem takeNext_subset {busy : Bool} {q rest : List HostAction} {a : HostAction} (h : takeNext busy q = some (a, rest)) :
    a ∈ q ∧ rest ⊆ q := by
  cases busy with
  | true =>
    obtain ⟨_, held, _, after, rfl, rfl⟩ := takeNext_busy h
    exact ⟨by simp, by simp⟩
  | false =>
    cases q with
    | nil => cases h
    | cons b q =>
      rw [takeNext_idle] at h
      cases h
      exact ⟨List.mem_cons_self, List.subset_cons_self a rest⟩

/-- What every step keeps, a run keeps. -/
theorem run_keeps {P : State → Prop} (hstep : ∀ t t', P t → step t = .next t' → P t') {n : Nat} {s t : State} (hs : P s)
    (h : Host.Core.run Sys2Proof.core n s = .next t) : P t := by
  induction n generalizing s with
  | zero =>
    cases h
    exact hs
  | succ n ih =>
    simp only [Host.Core.run] at h
    split at h
    next s' hs' => exact ih (hstep s s' hs hs') h
    · cases h
    · cases h

/-- A block that has been halted since it was in state `s`: its lanes, `R0` and `STATUS` are those of `s`, and so is every byte of
`M` for which no host write was issued. -/
structure HaltedSince (s t : State) : Prop where
  cc : t.cc = s.cc
  cas : t.cas = s.cas
  r0 : t.r0 = s.r0
  busy : t.busy = s.busy
  err : t.err = true
  errcode : t.errcode = s.errcode
  memWf : Memory.wf t.mem
  pending : t.pending ⊆ s.pending
  read : ∀ a, (∀ b, .writeMem a b ∉ s.pending) → t.mem.read a = s.mem.read a

theorem HaltedSince.refl {s : State} (herr : s.err = true) (hwf : Memory.wf s.mem) : HaltedSince s s where
  cc := rfl
  cas := rfl
  r0 := rfl
  busy := rfl
  err := herr
  errcode := rfl
  memWf := hwf
  pending := List.Subset.refl _
  read _ _ := rfl

/-- An issued write of a byte of `M` is the one access that changes a byte, and it changes only its own. -/
theorem HaltedSince.writeMem {s t : State} (h : HaltedSince s t) {addr : Nat} {b : Byte} (ha : .writeMem addr b ∈ s.pending) :
    HaltedSince s (t.setMem (t.mem.write addr b)) :=
  { h with
    memWf := Memory.wf_write h.memWf addr b
    read := fun x hx => by
      have hne : x ≠ addr := fun heq => hx b (heq ▸ ha)
      rw [State.setMem_mem, Memory.read_write_of_ne h.memWf b hne, h.read x hx] }

theorem HaltedSince.perform {s t t' : State} (h : HaltedSince s t) {a : HostAction} (ha : a ∈ s.pending)
    (hreset : ∀ c, a ≠ .hardReset c) (hperform : perform a t = .next t') : HaltedSince s t' := by
  cases a with
  | readReg _ | readWindow _ _ =>
    cases hperform
    exact { h with }
  | writeStatus _ | writeR0 _ | writeReserved _ =>
    cases hperform
    exact h
  | writeCmd w =>
    cases (writeCmd_of_halted w h.err).symm.trans hperform
    exact h
  | writeOperand k v =>
    cases hperform
    cases k with
    | a0 | a1 | a2 | a3 => exact { h with }
  | readMem addr =>
    simp only [Machine.perform] at hperform
    split at hperform
    · cases hperform
      exact { h with }
    · cases hperform
  | writeMem addr b =>
    simp only [Machine.perform] at hperform
    split at hperform
    · cases hperform
      exact h.writeMem ha
    · cases hperform
  | hardReset c => exact absurd rfl (hreset c)

theorem HaltedSince.step {s t t' : State} (hreset : ∀ c, .hardReset c ∉ s.pending) (h : HaltedSince s t)
    (hstep : step t = .next t') : HaltedSince s t' := by
  obtain ⟨_, hstay⟩ | ⟨a, rest, htake, hperform⟩ := step_shapes t
  · cases hstay.symm.trans hstep
    exact h
  · obtain ⟨ha, hrest⟩ := takeNext_subset htake
    have hwaiting : HaltedSince s { t with pending := rest } := { h with pending := List.Subset.trans hrest h.pending }
    exact hwaiting.perform (h.pending ha) (fun c heq => hreset c (heq ▸ h.pending ha)) (hperform.symm.trans hstep)

/-- Settles O11: a step without hard reset leaves the block halted since the state it was in. -/
theorem haltedBlockStaysInert : Obligations.HaltedBlockStaysInert := by
  unfold Obligations.HaltedBlockStaysInert
  intro n s t herr hwf hreset hrun
  have h : HaltedSince s t := run_keeps (fun _ _ => HaltedSince.step hreset) (.refl herr hwf) hrun
  exact ⟨h.cc, h.cas, h.r0, h.busy, h.err, h.errcode, h.read⟩

end Sys2Proof.Machine

/-! Reset and hazards (`70_reset_and_hazards.md`): the contents hard reset brings (rule R220), which commands run for ever and when
(rule R227), and what a block that does so takes of the host's accesses. -/

namespace Sys2Proof.Machine

/-! ### Hard reset (rule R220) -/

/-- A byte written above every listed address is listed last. -/
theorem Memory.write_of_above {m : Memory} {a : Nat} {b : Byte} (hb : b ≠ Memory.unlisted) (ha : ∀ c ∈ m, c.1 < a) :
    m.write a b = m ++ [(a, b)] := by
  induction m with
  | nil => exact if_neg hb
  | cons c m ih =>
    have hc : c.1 < a := ha c List.mem_cons_self
    rw [Memory.write, if_neg (by omega), if_neg (by omega), ih fun d hd => ha d (List.mem_cons_of_mem c hd)]
    rfl

/-- Canonical contents inside the size are brought as they are: each cell in turn is written above those before it. -/
theorem Memory.ofCells_of_wf {size : Nat} {m : Memory} (hwf : Memory.wf m) (hbelow : Memory.below size m) :
    Memory.ofCells size m = m := by
  induction m using List.reverseRecOn with
  | nil => rfl
  | append_singleton m c ih =>
    obtain ⟨hrising, hlisted⟩ := hwf
    obtain ⟨hm, -, habove⟩ := List.pairwise_append.1 hrising
    have hinit : Memory.ofCells size m = m :=
      ih ⟨hm, fun d hd => hlisted d (List.mem_append_left _ hd)⟩ fun d hd => hbelow d (List.mem_append_left _ hd)
    have hc : c ∈ m ++ [c] := List.mem_append_right m List.mem_cons_self
    calc Memory.ofCells size (m ++ [c])
        = if c.1 < size then (Memory.ofCells size m).write c.1 c.2 else Memory.ofCells size m := List.foldl_concat ..
      _ = Memory.write m c.1 c.2 := by rw [if_pos (hbelow c hc), hinit]
      _ = m ++ [c] := Memory.write_of_above (hlisted c hc) fun d hd => habove d hd c List.mem_cons_self

/-- Settles O2: the step is the hard reset, which leaves the five lanes all zero and brings the contents as they are. -/
theorem hardResetZeroesTheBlock : Obligations.HardResetZeroesTheBlock := by
  unfold Obligations.HardResetZeroesTheBlock
  intro s m rest htake hwf hbelow
  have hstep : step s = .next (hardReset m { s with pending := rest }) := by
    rw [step, hostStep, htake]
    rfl
  refine ⟨_, hstep, fun L hL => ?_, rfl, rfl, rfl, rfl, rfl, statusWord_of_clear rfl rfl rfl, ⟨rfl, rfl⟩,
    Memory.ofCells_of_wf hwf hbelow, rfl, rfl, rfl⟩
  obtain rfl : L = Lane.zero := by simpa [Cascade.zero] using hL
  exact ⟨Lane.zero_entry, rfl, rfl⟩

/-! ### Which commands run for ever (rule R227) -/

/-- An integer command on a valid operand runs for ever exactly when its one draw does. -/
theorem sampleTo_busy_iff {u : Src} {max : Nat} {s : State} :
    (sampleTo u (.valid max) s).busy = true ↔ uniformBelow (s.source u) max = none := by
  rw [sampleTo]
  cases uniformBelow (s.source u) max <;> simp

/-- Settles O41: the draw ends unless no candidate is ever accepted (O36). -/
theorem integerCommandsHangExactly : Obligations.IntegerCommandsHangExactly := by
  unfold Obligations.IntegerCommandsHangExactly
  intro i sg W s hi hpos hmax
  exact ⟨_, exec_of_valid_sample hi hpos hmax, sampleTo_busy_iff.trans (uniformBelow_eq_none_iff _ hpos),
    sampleTo_err ArgResult.noConfusion⟩

theorem State.endLoop_busy_iff {s : State} {o : Option (Source × Memory)} : (s.endLoop o).busy = true ↔ o = none := by
  cases o with
  | none => simp [State.endLoop]
  | some r => simp [State.endLoop, completed]

/-- Rules R169, R170: the draws of the insertion loop depend on neither the memory nor the list it works on. -/
theorem permLoop_eq_none_iff {steps i base : Nat} {src : Source} {m : Memory} {l : List Nat} :
    permLoop steps i base src m = none ↔ permutationLoop steps i src l = none := by
  induction steps generalizing i src m l with
  | zero => simp [permLoop, permutationLoop]
  | succ steps ih =>
    rw [permLoop, permutationLoop]
    cases uniformBelow src (i + 1) with
    | none => simp
    | some r => exact ih

/-- Rules R171, R172: the draws of the swap loop depend on neither the memory nor the list it works on. -/
theorem shufLoop_eq_none_iff {α : Type} {esz base i : Nat} {src : Source} {m : Memory} {l : List α} :
    shufLoop esz base i src m = none ↔ shuffleLoop i src l = none := by
  induction i generalizing src m l with
  | zero => simp [shufLoop, shuffleLoop]
  | succ i ih =>
    rw [shufLoop, shuffleLoop]
    cases uniformBelow src (i + 2) with
    | none => simp
    | some r => exact ih

/-- Settles O47: the checks pass, and the loop on `M` ends when the loop on the list does. -/
theorem permAndShufHangExactly : Obligations.PermAndShufHangExactly := by
  unfold Obligations.PermAndShufHangExactly
  refine fun u s => ⟨fun hcount hdst => ?_, fun hsrc hdst => ?_⟩
  · have hn := toNat_sgn64_of_nonneg hcount
    have hrange : ¬rangeOutside (.perm u) s := by simpa [rangeOutside, hn] using hdst
    refine ⟨_, exec_perm (Int.not_lt.2 hcount) hrange, s.endLoop_err _, State.endLoop_busy_iff.trans ?_⟩
    rw [hn]
    exact permLoop_eq_none_iff
  · have hrange : ¬rangeOutside (.shuf u) s := not_or.2 ⟨Nat.not_lt.2 hsrc, Nat.not_lt.2 hdst⟩
    refine ⟨_, exec_shuf hrange, s.endLoop_err _, State.endLoop_busy_iff.trans ?_⟩
    rw [shuffle, List.length_range]
    exact shufLoop_eq_none_iff

/-! ### The accesses of a block that runs for ever (rules R63, R227) -/

/-- The accesses issued but for the reads of `STATUS`, in order. -/
def heldAccesses (q : List HostAction) : List HostAction := q.filter fun a => decide (a ≠ .readReg .status)

@[simp] theorem mem_heldAccesses {q : List HostAction} {a : HostAction} :
    a ∈ heldAccesses q ↔ a ∈ q ∧ a ≠ .readReg .status := by
  simp [heldAccesses]

/-- Taking a read of `STATUS` out leaves the accesses held. -/
theorem heldAccesses_of_status_taken (before after : List HostAction) :
    heldAccesses (before ++ .readReg .status :: after) = heldAccesses (before ++ after) := by
  simp [heldAccesses]

/-- A block that runs a command takes a read of `STATUS` or nothing. -/
theorem step_of_busy {s : State} (hbusy : s.busy = true) (hreset : ∀ c, .hardReset c ∉ s.pending) :
    ∃ q r, step s = .next { s with pending := q, replies := r } ∧ heldAccesses q = heldAccesses s.pending := by
  obtain ⟨_, hstay⟩ | ⟨a, rest, htake, hperform⟩ := step_shapes s
  · exact ⟨s.pending, s.replies, hstay, rfl⟩
  · rw [hbusy] at htake
    obtain ⟨hpasses, before, _, after, hpending, rfl⟩ := takeNext_busy htake
    have hissued : a ∈ s.pending := by simp [hpending]
    have hstatus : a = .readReg .status := by
      by_contra hne
      have hheld : passesBusy a = false := passesBusy_eq_false_iff.2 ⟨hne, fun c hc => hreset c (hc ▸ hissued)⟩
      exact Bool.noConfusion (hheld.symm.trans hpasses)
    subst hstatus
    exact ⟨before ++ after, _, hperform, by rw [hpending, heldAccesses_of_status_taken]⟩

/-- Over any number of steps such a block takes reads of `STATUS` only. -/
theorem run_of_busy (n : Nat) {s : State} (hbusy : s.busy = true) (hreset : ∀ c, .hardReset c ∉ s.pending) :
    ∃ q r, Host.Core.run Sys2Proof.core n s = .next { s with pending := q, replies := r } ∧
      heldAccesses q = heldAccesses s.pending := by
  induction n generalizing s with
  | zero => exact ⟨s.pending, s.replies, rfl, rfl⟩
  | succ n ih =>
    obtain ⟨q, r, hstep, hq⟩ := step_of_busy hbusy hreset
    have hreset' : ∀ c, .hardReset c ∉ q := fun c hc => by
      have hheld : .hardReset c ∈ heldAccesses q := mem_heldAccesses.2 ⟨hc, HostAction.noConfusion⟩
      rw [hq] at hheld
      exact hreset c (mem_heldAccesses.1 hheld).1
    obtain ⟨q', r', hrun, hq'⟩ := ih (s := { s with pending := q, replies := r }) hbusy hreset'
    exact ⟨q', r', (run_succ_of_step hstep).trans hrun, hq'.trans hq⟩

/-- Settles O57: every step takes a read of `STATUS` or nothing. -/
theorem runningForEverHoldsForEver : Obligations.RunningForEverHoldsForEver := by
  unfold Obligations.RunningForEverHoldsForEver
  intro n s hbusy hreset
  obtain ⟨q, r, hrun, hq⟩ := run_of_busy n hbusy hreset
  exact ⟨_, hrun, rfl, hq⟩

end Sys2Proof.Machine
